-- ==== Sys2Proof/Word.lean ====
section
/-! DEFINITION. The data words of the RDS encoder core: bytes, 16-bit blocks, the command word and the
open sample type. -/
namespace Sys2Proof

/-- One 8-bit character or AF code (rules R12, R16). -/
abbrev Byte := BitVec 8

/-- One 16-bit data block (rule R61). -/
abbrev Block := BitVec 16

/-- One 10-bit checkword (rule R63). -/
abbrev Check := BitVec 10

/-- The command word of the control port: three fields, `op` (4 bits), `len` (7 bits) and `data` (512 bits), rule R64.
`data` is held by its byte lanes: lane `k` is `data[8k+7:8k]`. -/
structure CmdWord where
  op : BitVec 4
  len : BitVec 7
  data : Vector Byte 64
deriving DecidableEq, Repr

/-- One value of the OPEN numeric type of samples (rules R80, R161; decision D13). The spec fixes no format, so a
sample is held as a code number that only the operations of `Cfg` interpret. Log entry 5. -/
structure Sample where
  code : Int
deriving DecidableEq, Repr, Inhabited

end Sys2Proof
end

