-- ==== Sys2Proof/Config.lean ====
section
/-! DEFINITION. The configuration record `Cfg` of rule R6 and the constants without a body that stand for what the
spec leaves open. The values of this hardware are in Machine/Params.lean. -/
namespace Sys2Proof

/-- The configuration record of rule R6, fixed before reset (rule R235). Fields whose value follows from a width
(BLOCK_BITS and the like) are types in this model. -/
structure Cfg where
  /-- `OFFSET_WORD[0..3]`, by block position. -/
  offsetWord : Fin 4 → Check
  /-- `GT_0A`, `GT_2A`, `GT_4A`: group type, version and bit 10 of block 1. -/
  gt0A : Block
  gt2A : Block
  gt4A : Block
  /-- `PTY_SHIFT`: PTY's lowest bit in block 1. -/
  ptyShift : Nat
  /-- `TA_BIT`: TA's bit in block 1 of a 0A group. -/
  taBit : Nat
  /-- `AF_COUNT_BASE`: the count code is this plus N. -/
  afCountBase : Nat
  /-- `AF_FILLER`. -/
  afFiller : Byte
  /-- `NO_AF_BLOCK`. -/
  noAfBlock : Block
  /-- `S`, samples per bit. -/
  samplesPerBit : Nat
  /-- `F`, the length of the pulse-shaping waveform. -/
  filterSize : Nat
  /-- `WAVEFORM[j]`, read for `j < F` only. -/
  waveform : Nat → Sample
  /-- `Sample`'s `zero`, `+` and unary `-`. -/
  zero : Sample
  add : Sample → Sample → Sample
  neg : Sample → Sample
  /-- The MJD of a date outside the range of rule R124: unspecified (U6), any 17 bits. -/
  mjdOutside : BitVec 12 → BitVec 4 → BitVec 5 → BitVec 17

/-- `B = S + F`, the ring's size (rule R6). -/
def Cfg.ringSize (c : Cfg) : Nat := c.samplesPerBit + c.filterSize

/-- `F - 1`: `F` is OPEN but for `F >= 1` (decision D14). Log entry 6. -/
opaque Config.filterSizePred : Nat

/-- `WAVEFORM`: OPEN (decision D14). Log entry 6. -/
opaque Config.waveform : Nat → Sample

/-- `Sample.zero`: OPEN (decision D13). Log entry 5. -/
opaque Config.sampleZero : Sample

/-- `Sample` addition: OPEN (decision D13). Log entry 5. -/
opaque Config.sampleAdd : Sample → Sample → Sample

/-- `Sample` negation: OPEN (decision D13). Log entry 5. -/
opaque Config.sampleNeg : Sample → Sample

/-- Free value: the MJD of a date (year, month, day) outside 1900-03-01..2100-02-28 (U6). Log entry 7. -/
opaque Config.mjdOutside : BitVec 12 → BitVec 4 → BitVec 5 → BitVec 17

end Sys2Proof
end

