-- ==== Sys2Proof/Machine/Params.lean ====
section
/-! DEFINITION. The values of the configuration of this hardware (rule R6), and the literal constants of the rules. -/
namespace Sys2Proof.Machine

/-- `AF_MAX`, the AF pool's capacity (rule R16). -/
def afMax : Nat := 25

/-- `PTY_MAX` (rule R15). -/
def ptyMax : Nat := 31

/-- The AF code range 1..204 (rule R72). -/
def afCodeLo : Nat := 1
def afCodeHi : Nat := 204

/-- The codec's literals (rule R106). -/
def afLoHz : Nat := 87600000
def afHiHz : Nat := 107900000
def afStepHz : Nat := 100000
def afBaseHz : Nat := 87500000

/-- `AF_REJECT`, the reject sentinel (rules R6, R106). -/
def afReject : Byte := 0x00#8

/-- The space character (rule R12, decision D20). -/
def space : Byte := 0x20#8

/-- `CRC_GEN`, g(x) as an 11-bit word (rule R6). -/
def crcGen : BitVec 11 := 0x5B9#11

/-- `CRC_POLY_LOW`, g(x) without its x^10 term (rules R6, R91). -/
def crcPolyLow : Check := 0x1B9#10

/-- `OFFSET_WORD[0..3]` (rule R63, decision D7). -/
def offsetWords (i : Fin 4) : Check :=
  match i with
  | 0 => 0x0FC#10
  | 1 => 0x198#10
  | 2 => 0x168#10
  | 3 => 0x1B4#10

/-- `CARRIER_HZ` and `SAMPLE_RATE_HZ` (rules R6, R156): figures of the scope table; no rule of the machine reads them. -/
def carrierHz : Nat := 57000
def sampleRateHz : Nat := 4 * carrierHz

/-- The configuration of this hardware (rule R6): the stated values, and the OPEN ones without a body. -/
def hw : Cfg where
  offsetWord := offsetWords
  gt0A := 0x0400#16
  gt2A := 0x2400#16
  gt4A := 0x4400#16
  ptyShift := 5
  taBit := 4
  afCountBase := 224
  afFiller := 0xCD#8
  noAfBlock := 0xCDCD#16
  samplesPerBit := 192
  filterSize := Config.filterSizePred + 1
  waveform := Config.waveform
  zero := Config.sampleZero
  add := Config.sampleAdd
  neg := Config.sampleNeg
  mjdOutside := Config.mjdOutside

end Sys2Proof.Machine
end

