-- ==== Sys2Proof/Syntax.lean ====
section
/-! DEFINITION. The operations of the hardware (rule R78, spec/opcode_table.json), one constructor per mnemonic, and
the operand formats they carry. -/
namespace Sys2Proof

/-- Format TIME: the clock reading of the time port (rule R66). -/
structure TimeReading where
  valid : Bool
  year : BitVec 12
  month : BitVec 4
  day : BitVec 5
  hour : BitVec 5
  min : BitVec 6
  offNeg : Bool
  offMag : BitVec 5
deriving DecidableEq, Repr

/-- The four 16-bit data words `blk[0..3]` of a group (rule R60). -/
structure Blocks where
  b0 : Block
  b1 : Block
  b2 : Block
  b3 : Block
deriving DecidableEq, Repr

/-- The operations of rule R78. The seven CMD_RESERVED rows of the table differ in `op` alone and are one constructor
(log entry 19). -/
inductive Instr where
  /-- SET_PI, rule R101. -/
  | setPi (pi : BitVec 16)
  /-- SET_PS, rule R102: `len` and the eight character lanes the port carries. -/
  | setPs (len : BitVec 7) (chars : Vector Byte 8)
  /-- SET_RT, rule R103: `len` and the sixty-four character lanes. -/
  | setRt (len : BitVec 7) (chars : Vector Byte 64)
  /-- SET_TA, rule R104. -/
  | setTa (ta : Bool)
  /-- SET_PTY, rule R105. -/
  | setPty (pty : BitVec 8)
  /-- ADD_AF_HZ, rule R107. -/
  | addAfHz (hz : BitVec 32)
  /-- ADD_AF_CODE, rule R108. -/
  | addAfCode (code : BitVec 8)
  /-- CLEAR_AF, rule R111. -/
  | clearAf
  /-- SET_SUPPRESS, rule R109. -/
  | setSuppress (on : Bool)
  /-- CMD_RESERVED, rule R203: `op` is 0x0 or 0xA..0xF; its other fields are ignored. -/
  | cmdReserved (op : BitVec 4)
  /-- SAMPLE, rule R150. -/
  | sample
  /-- PRODUCE, rule R158. -/
  | produce (count : Nat)
  /-- CRC10, rule R90. -/
  | crc10 (block : Block)
  /-- MHZ_TO_CODE, rule R106. -/
  | mhzToCode (hz : BitVec 32)
  /-- NEXT_GROUP, rule R121. -/
  | nextGroup
  /-- GROUP_4A, rule R123: its operand is the clock reading. -/
  | group4A (t : TimeReading)
  /-- GROUP_0A, rule R126. -/
  | group0A
  /-- GROUP_2A, rule R128. -/
  | group2A
  /-- AF_BLOCK, rule R127. -/
  | afBlock
  /-- EMIT_FRAME, rule R135: its operand is `blk[0..3]`. -/
  | emitFrame (blk : Blocks)
  /-- NEXT_BIT, rule R151. -/
  | nextBit
  /-- OLA_ADD, rule R153: its operand is the encoded bit. -/
  | olaAdd (d : Bool)
  /-- READ_OUT, rule R154. -/
  | readOut
  /-- MODULATE, rule R155: its operand is the envelope sample. -/
  | modulate (e : Sample)
  /-- RESET, rule R230. -/
  | reset
deriving DecidableEq, Repr

end Sys2Proof
end

