-- ==== Sys2Proof/Machine/State.lean ====
section
/-! DEFINITION. The state of the machine (10_state.md), its reset value (rule R39) and the reasons a step could stop. -/
namespace Sys2Proof.Machine

/-- StationParams, "the single source of truth for on-air identity" (rules R10 to R18). -/
structure StationParams where
  /-- `PI`, rule R11. -/
  pi : BitVec 16
  /-- `PS[0..7]`, rule R12. -/
  ps : Vector Byte 8
  /-- `RT[0..63]`, rule R13. -/
  rt : Vector Byte 64
  /-- `TA`, rule R14. -/
  ta : Bool
  /-- `PTY`, rule R15. -/
  pty : BitVec 5
  /-- `AF_POOL[0..AF_COUNT-1]`, rule R16, in insertion order. `AF_COUNT` is its length (U1; log entry 10). -/
  afPool : List Byte
deriving DecidableEq, Repr

/-- `AF_COUNT` (rule R16). -/
abbrev StationParams.afCount (p : StationParams) : Nat := p.afPool.length

/-- GroupCursor, the scheduler's control registers (rules R21 to R25). -/
structure GroupCursor where
  /-- `state`, rule R21. -/
  state : Fin 5
  /-- `ps_state`, rule R22. -/
  psState : Fin 4
  /-- `rt_state`, rule R23. -/
  rtState : Fin 16
  /-- `af_state`, rule R24: the index of the next AF emission. -/
  afState : Fin 13
  /-- `latest_minute`, rule R25: -1..59 in two's complement (60..63 through U4). -/
  latestMinute : BitVec 7
deriving DecidableEq, Repr

/-- SynthesisState (rules R29 to R34). -/
structure SynthState where
  /-- `bit_pos`, rule R29: 104 means the frame is exhausted. -/
  bitPos : Fin 105
  /-- `RING[0..B-1]`, rule R30. -/
  ring : List Sample
  /-- `cur_output`, rule R31. -/
  curOutput : Bool
  /-- `sample_count`, rule R32. -/
  sampleCount : Fin 193
  /-- `phase`, rule R33. -/
  phase : Fin 4
  /-- `in_idx`, rule R34: where the next pulse copy starts. -/
  inIdx : Nat
  /-- `out_idx`, rule R34: the slot the next sample is read from. -/
  outIdx : Nat
deriving DecidableEq, Repr

/-- The outcome of the most recent command (rules R37, R200). Its 2-bit code is `CmdStatus.code`. -/
inductive CmdStatus where
  | ok
  | afInvalid
  | afFull
  | unknownCmd
deriving DecidableEq, Repr

/-- What the other ports present between two samples of one PRODUCE (rules R48, R158): a reading newly driven on the time
port, reset, a command word. `after` is how many samples of the request come between the event before it, or the
request's start, and this one: 0 for nothing between the two. -/
structure Between where
  after : Nat
  time : Option TimeReading
  reset : Bool
  control : Option CmdWord
deriving DecidableEq, Repr

/-- What the synthesis actor requests at an instant. A PRODUCE carries what falls between its samples, in order. -/
inductive SynthRequest where
  | idle
  | sample
  | produce (count : Nat) (between : List Between)
deriving DecidableEq, Repr

/-- What the ports present at one instant (rules R38, R48, R53, R56): a reading newly driven on the time port, reset, a
request on the synthesis port, a command word on the control port. -/
structure Instant where
  time : Option TimeReading
  reset : Bool
  synth : SynthRequest
  control : Option CmdWord
deriving DecidableEq, Repr

/-- What an internal micro-operation run on its own returned to its caller (log entry 13). -/
inductive UopResult where
  | none
  | crc (c : Check)
  | code (c : Byte)
  | blocks (b1 b2 b3 : Block)
  | af (r : Block)
  | sample (e : Sample)
deriving DecidableEq, Repr

/-- The state: what 10_state.md gives the machine, then the model's own fields for the ports. -/
structure State where
  /-- StationParams, rule R10. -/
  params : StationParams
  /-- `SNAP`, rule R26. -/
  snap : StationParams
  /-- GroupCursor, rules R21 to R25. -/
  cursor : GroupCursor
  /-- `BITS[0..103]`, rule R28: index 0, the first bit transmitted, is the most significant bit. -/
  bits : BitVec 104
  /-- SynthesisState, rules R29 to R34. -/
  synth : SynthState
  /-- `suppress_write`, rule R36. -/
  suppressWrite : Bool
  /-- `cmd_status`, rule R37. -/
  cmdStatus : CmdStatus
  /-- The model's own: the instants still to come, oldest first (log entry 1). -/
  pending : List Instant
  /-- The model's own: the reading held on the time port (rule R191; log entry 12). -/
  timePort : TimeReading
  /-- The model's own: the samples returned so far, oldest first (log entry 16). -/
  samplesOut : List Sample
  /-- The model's own: how many `hist_req` events were emitted (rule R110; log entry 16). -/
  histReqs : Nat
  /-- The model's own: the result of a micro-operation run on its own (log entry 13). -/
  result : UopResult
deriving DecidableEq, Repr

/-- Why a step could stop with a fault. The spec gives the hardware no fault: "no operation ever transfers control,
saves state or changes a mode" (60_exceptions.md), rejections only write `cmd_status` (rule R208). So there is no
constructor. -/
inductive Fault where
deriving DecidableEq, Repr

/-- Why an operation could have no meaning. -/
inductive Refusal where
  /-- Raised by exec's arm of an operation that has no meaning yet, by its mnemonic. Safe: the model stops. No arm
  raises it. -/
  | notModelled (mnemonic : String)
deriving DecidableEq, Repr

/-- StationParams after reset (rule R39, decision D19). -/
def StationParams.reset : StationParams where
  pi := 0x0000#16
  ps := Vector.replicate 8 space
  rt := Vector.replicate 64 space
  ta := false
  pty := 0
  afPool := []

/-- GroupCursor after reset (rule R39, decision D18): `latest_minute = -1`. -/
def GroupCursor.reset : GroupCursor where
  state := 0
  psState := 0
  rtState := 0
  afState := 0
  latestMinute := 0x7F#7

/-- SynthesisState after reset under a configuration (rule R39, decision D18). `sample_count = S`. -/
def SynthState.reset (c : Cfg) : SynthState where
  bitPos := 104
  ring := List.replicate c.ringSize c.zero
  curOutput := false
  sampleCount := Fin.ofNat 193 c.samplesPerBit
  phase := 0
  inIdx := 0
  outIdx := c.ringSize - 1

/-- The time port before the platform drives it: no clock (DESIGN CHOICE, log entry 12). -/
def TimeReading.absent : TimeReading where
  valid := false
  year := 0
  month := 0
  day := 0
  hour := 0
  min := 0
  offNeg := false
  offMag := 0

/-- The machine right after reset under a configuration (rules R39, R230), nothing presented on any port. `SNAP` and
`BITS` are unspecified by the spec: DESIGN CHOICE, log entries 8 and 9. -/
def State.resetOf (c : Cfg) : State where
  params := StationParams.reset
  snap := StationParams.reset
  cursor := GroupCursor.reset
  bits := 0
  synth := SynthState.reset c
  suppressWrite := false
  cmdStatus := .ok
  pending := []
  timePort := TimeReading.absent
  samplesOut := []
  histReqs := 0
  result := .none

/-- This hardware right after reset (rules R39, R230). -/
def State.reset : State := State.resetOf hw

end Sys2Proof.Machine
end

