-- ==== Sys2Proof/Machine/Flags.lean ====
section
/-! DEFINITION. Status and conditions: the code of `cmd_status`, and the clock-time condition. The hardware has no
arithmetic condition codes (rule R35). -/
namespace Sys2Proof.Machine

/-- The 2-bit code of `cmd_status` (rules R37, R200). -/
def CmdStatus.code : CmdStatus → BitVec 2
  | .ok => 0
  | .afInvalid => 1
  | .afFull => 2
  | .unknownCmd => 3

/-- A minute of the time port at the width of `latest_minute`. -/
def minuteWord (m : BitVec 6) : BitVec 7 := m.setWidth 7

/-- The CT condition: `T.t_valid = 1 and T.t_min != latest_minute` (rules R121, R125). -/
def ctCondition (t : TimeReading) (latest : BitVec 7) : Bool := t.valid && minuteWord t.min != latest

end Sys2Proof.Machine
end

