-- ==== Sys2Proof/Machine/Operands.lean ====
section
/-! DEFINITION. Operand conditioning, done before a command writes state (rules R75, R102, R103, R105), and the indexed
reads of the character arrays (rule R43). -/
namespace Sys2Proof.Machine

/-- A string fitted to a field of `n` characters: the first `min(len, n)` characters, then spaces (rules R102, R103). -/
def fitText {n : Nat} (len : BitVec 7) (chars : Vector Byte n) : Vector Byte n :=
  Vector.ofFn fun k : Fin n => if k.val < len.toNat then chars.get k else space

/-- PTY clamped to 31 (rule R105). -/
def clampPty (pty : BitVec 8) : BitVec 5 := BitVec.ofNat 5 (min pty.toNat ptyMax)

/-- `PS[2*seg]` and `PS[2*seg+1]` in bits 15:8 and 7:0 (rules R41, R126). -/
def psPair (ps : Vector Byte 8) (seg : Fin 4) : Block :=
  ps.get ⟨2 * seg.val, by omega⟩ ++ ps.get ⟨2 * seg.val + 1, by omega⟩

/-- `RT[4*seg+k]` and `RT[4*seg+k+1]` in bits 15:8 and 7:0, for `k` 0 or 2 (rules R41, R128). -/
def rtPair (rt : Vector Byte 64) (seg : Fin 16) (second : Bool) : Block :=
  let k := if second then 2 else 0
  rt.get ⟨4 * seg.val + k, by simp only [k]; split <;> omega⟩ ++
    rt.get ⟨4 * seg.val + k + 1, by simp only [k]; split <;> omega⟩

/-- `AF_POOL[i]`, read for `i < AF_COUNT` only (rules R43, R127). -/
def afCode (pool : List Byte) (i : Nat) : Byte := pool.getD i 0

end Sys2Proof.Machine
end

