-- ==== Sys2Proof/Machine/Ops.lean ====
section
/-! DEFINITION. The named operations over the registers and arrays: accepting and rejecting a command, and the accesses
to `BITS` and `RING`. -/
namespace Sys2Proof.Machine

/-- `raise <Name>`: a rejection. It writes `cmd_status` and nothing else; no `hist_req` (rules R8, R100, R208). This is
all the hardware has in place of an exception: control goes nowhere and there is nothing to return from (R208, R209). -/
def State.reject (s : State) (why : CmdStatus) : State := { s with cmdStatus := why }

/-- `HistReq()`: one `hist_req` event unless writes are suppressed (rule R110). -/
def State.histReq (s : State) : State :=
  { s with histReqs := if s.suppressWrite then s.histReqs else s.histReqs + 1 }

/-- An accepted setter: StationParams are written atomically, `cmd_status <- OK`, then `HistReq()` (rule R100). -/
def State.accept (s : State) (p : StationParams) : State :=
  State.histReq { s with params := p, cmdStatus := .ok }

/-- Append an accepted code at index `AF_COUNT`, or reject a full pool (rules R107, R108). -/
def State.appendAf (s : State) (code : Byte) : State :=
  if s.params.afCount = afMax then s.reject .afFull
  else s.accept { s.params with afPool := s.params.afPool ++ [code] }

/-- The value an internal micro-operation returns when it is run on its own (log entry 13). -/
def State.returned (s : State) (r : UopResult) : State := { s with result := r }

/-- `BITS[k]` (rules R28, R40). -/
def State.bitAt (s : State) (k : Nat) : Bool := s.bits.getMsbD k

/-- `RING[i]`. -/
def ringGet (c : Cfg) (ring : List Sample) (i : Nat) : Sample := ring.getD i c.zero

/-- `RING[i] <- RING[i] + v` (rule R153). -/
def ringAdd (c : Cfg) (ring : List Sample) (i : Nat) (v : Sample) : List Sample :=
  ring.set i (c.add (ringGet c ring i) v)

/-- `RING[i] <- zero` (rule R154). -/
def ringClear (c : Cfg) (ring : List Sample) (i : Nat) : List Sample := ring.set i c.zero

/-- The value OLA_ADD adds at tap `j`: the waveform, inverted if the encoded bit is 1 (rule R153). -/
def pulse (c : Cfg) (d : Bool) (j : Nat) : Sample := if d then c.neg (c.waveform j) else c.waveform j

/-- `n` taps of a pulse copy, from tap `j` on in increasing order, starting at slot `base` (rule R153). -/
def overlapAdd (c : Cfg) (d : Bool) (base : Nat) : Nat → Nat → List Sample → List Sample
  | 0, _, ring => ring
  | n + 1, j, ring =>
    overlapAdd c d base n (j + 1) (ringAdd c ring ((base + j) % c.ringSize) (pulse c d j))

end Sys2Proof.Machine
end

