-- ==== Sys2Proof/Machine/Crc.lean ====
section
/-! DEFINITION. CRC10 (40_crc.md) and the checkword (rule R63). -/
namespace Sys2Proof.Machine

/-- One step of the bit-serial division: the register shifts left, a 0 enters at bit 0, and the vacated top bit is
compared with the incoming data bit (rule R91, conflict C6). -/
def crcStep (reg : Check) (bit : Bool) : Check :=
  let shifted := reg <<< 1
  if reg.getLsbD 9 ^^ bit then shifted ^^^ crcPolyLow else shifted

/-- The bits of a block, most significant first. -/
def msbFirst (block : Block) : List Bool := (List.range 16).map fun j => block.getLsbD (15 - j)

/-- CRC10 of a block (rules R90, R91). -/
def crc10 (block : Block) : Check := (msbFirst block).foldl crcStep 0

/-- `check_i = CRC10(data) xor OFFSET_WORD[i]` (rule R63). -/
def checkword (c : Cfg) (i : Fin 4) (data : Block) : Check := crc10 data ^^^ c.offsetWord i

/-- CRC10 (rule R90): no state changes; the checkword is returned. -/
def execCrc10 (block : Block) (s : State) : Host.Outcome State Fault Refusal :=
  .next (s.returned (.crc (crc10 block)))

end Sys2Proof.Machine
end

