-- ==== Sys2Proof/Machine/ParamStore.lean ====
section
/-! DEFINITION. The commands of the control port and the frequency codec (41_param_store.md). -/
namespace Sys2Proof.Machine

/-- The frequency codec (rules R74, R106): 0 is the reject sentinel. -/
def mhzToCode (hz : BitVec 32) : Byte :=
  if hz.toNat < afLoHz ∨ afHiHz < hz.toNat then afReject
  else if (hz.toNat - afBaseHz) % afStepHz ≠ 0 then afReject
  else BitVec.ofNat 8 ((hz.toNat - afBaseHz) / afStepHz)

/-- SET_PI (rule R101). -/
def execSetPi (pi : BitVec 16) (s : State) : Host.Outcome State Fault Refusal :=
  .next (s.accept { s.params with pi := pi })

/-- SET_PS (rule R102). -/
def execSetPs (len : BitVec 7) (chars : Vector Byte 8) (s : State) : Host.Outcome State Fault Refusal :=
  .next (s.accept { s.params with ps := fitText len chars })

/-- SET_RT (rule R103). -/
def execSetRt (len : BitVec 7) (chars : Vector Byte 64) (s : State) : Host.Outcome State Fault Refusal :=
  .next (s.accept { s.params with rt := fitText len chars })

/-- SET_TA (rule R104). -/
def execSetTa (ta : Bool) (s : State) : Host.Outcome State Fault Refusal :=
  .next (s.accept { s.params with ta := ta })

/-- SET_PTY (rule R105). -/
def execSetPty (pty : BitVec 8) (s : State) : Host.Outcome State Fault Refusal :=
  .next (s.accept { s.params with pty := clampPty pty })

/-- ADD_AF_HZ (rule R107): the codec is consulted before the pool size (rule R207b). -/
def execAddAfHz (hz : BitVec 32) (s : State) : Host.Outcome State Fault Refusal :=
  let code := mhzToCode hz
  .next (if code = afReject then s.reject .afInvalid else s.appendAf code)

/-- ADD_AF_CODE (rule R108): codes outside 1..204 are rejected before the pool size is looked at (rule R207b). -/
def execAddAfCode (code : BitVec 8) (s : State) : Host.Outcome State Fault Refusal :=
  .next (if code.toNat < afCodeLo ∨ afCodeHi < code.toNat then s.reject .afInvalid else s.appendAf code)

/-- CLEAR_AF (rule R111): `AF_COUNT <- 0`. -/
def execClearAf (s : State) : Host.Outcome State Fault Refusal :=
  .next (s.accept { s.params with afPool := [] })

/-- SET_SUPPRESS (rule R109): no `hist_req`. -/
def execSetSuppress (on : Bool) (s : State) : Host.Outcome State Fault Refusal :=
  .next { s with suppressWrite := on, cmdStatus := .ok }

/-- CMD_RESERVED (rule R203): `raise UNKNOWN_CMD`, whatever the opcode and the operands. -/
def execCmdReserved (s : State) : Host.Outcome State Fault Refusal :=
  .next (s.reject .unknownCmd)

/-- MHZ_TO_CODE (rule R106): no state changes; the code is returned. -/
def execMhzToCode (hz : BitVec 32) (s : State) : Host.Outcome State Fault Refusal :=
  .next (s.returned (.code (mhzToCode hz)))

end Sys2Proof.Machine
end

