-- ==== Sys2Proof/Machine/Scheduler.lean ====
section
/-! DEFINITION. The group scheduler and group formatter (42_scheduler.md), over the formats of 30_encoding.md. -/
namespace Sys2Proof.Machine

/-- The MJD formula in exact integer form (rule R124). -/
def mjdFormula (y m d : Nat) : Nat :=
  let l := if m = 1 ∨ m = 2 then 1 else 0
  let k := m + 1 + 12 * l
  14956 + d + ((y - 1900 - l) * 1461) / 4 + (k * 306001) / 10000

/-- A date as one number that orders dates. -/
def dateKey (y m d : Nat) : Nat := (y * 16 + m) * 32 + d

/-- 1900-03-01..2100-02-28, the dates for which the formula is stated (rule R124, U6). -/
def mjdDefined (y m d : Nat) : Bool :=
  decide (dateKey 1900 3 1 ≤ dateKey y m d ∧ dateKey y m d ≤ dateKey 2100 2 28)

/-- MJD of a reading's UTC date, 17 bits (rule R124). Outside the stated range it is a free value of the date (U6; log
entry 7). -/
def mjd (c : Cfg) (t : TimeReading) : BitVec 17 :=
  if mjdDefined t.year.toNat t.month.toNat t.day.toNat then
    BitVec.ofNat 17 (mjdFormula t.year.toNat t.month.toNat t.day.toNat)
  else c.mjdOutside t.year t.month t.day

/-- Block 1 of a CT group: `GT_4A or MJD[16:15]` (rules R70, R71). -/
def ctBlock1 (c : Cfg) (t : TimeReading) : Block := c.gt4A ||| ((mjd c t) >>> 15).setWidth 16

/-- Block 2 of a CT group: `((MJD << 1) and 0xFFFF) or (t_hour >> 4)` (rule R71). -/
def ctBlock2 (c : Cfg) (t : TimeReading) : Block :=
  ((mjd c t).setWidth 16 <<< 1) ||| (t.hour >>> 4).setWidth 16

/-- Block 3 of a CT group: hour nibble, minute, offset sign and magnitude (rule R71). -/
def ctBlock3 (t : TimeReading) : Block :=
  ((t.hour.setWidth 16 &&& 0xF#16) <<< 12) ||| (t.min.setWidth 16 <<< 6) |||
    ((BitVec.ofBool t.offNeg).setWidth 16 <<< 5) ||| t.offMag.setWidth 16

/-- The number of AF emissions in one pass over `n` codes (rule R127). -/
def afEmissions (n : Nat) : Nat := n / 2 + 1

/-- The emission AF_BLOCK makes: a stale cursor restarts the sequence (rule R127). -/
def afEmission (n : Nat) (afState : Fin 13) : Nat := if afState.val < afEmissions n then afState.val else 0

/-- The AF field of a 0A group (rules R73, R127). -/
def afWord (c : Cfg) (pool : List Byte) (afState : Fin 13) : Block :=
  let n := pool.length
  let e := afEmission n afState
  if n = 0 then c.noAfBlock
  else if e = 0 then BitVec.ofNat 8 (c.afCountBase + n) ++ afCode pool 0
  else if 2 * e < n then afCode pool (2 * e - 1) ++ afCode pool (2 * e)
  else afCode pool (2 * e - 1) ++ c.afFiller

/-- `af_state` after AF_BLOCK (rule R127). -/
def afNext (n : Nat) (afState : Fin 13) : Fin 13 :=
  if n = 0 then 0 else Fin.ofNat 13 ((afEmission n afState + 1) % afEmissions n)

/-- GroupCursor after AF_BLOCK. -/
def GroupCursor.afterAf (g : GroupCursor) (p : StationParams) : GroupCursor :=
  { g with afState := afNext p.afCount g.afState }

/-- Block 1 of a 0A group before PTY: `GT_0A or (TA << 4) or ps_state` (rules R68, R126). -/
def psBlock1 (c : Cfg) (p : StationParams) (g : GroupCursor) : Block :=
  c.gt0A ||| ((BitVec.ofBool p.ta).setWidth 16 <<< c.taBit) ||| BitVec.ofNat 16 g.psState.val

/-- Block 3 of a 0A group: two characters of the name (rule R126). -/
def psBlock3 (p : StationParams) (g : GroupCursor) : Block := psPair p.ps g.psState

/-- GroupCursor after GROUP_0A: `af_state` by AF_BLOCK, `ps_state` advanced modulo 4 (rule R126). -/
def GroupCursor.after0A (g : GroupCursor) (p : StationParams) : GroupCursor :=
  { g.afterAf p with psState := g.psState + 1 }

/-- Block 1 of a 2A group before PTY: `GT_2A or rt_state` (rules R69, R128). -/
def rtBlock1 (c : Cfg) (g : GroupCursor) : Block := c.gt2A ||| BitVec.ofNat 16 g.rtState.val

/-- GroupCursor after GROUP_2A: `rt_state` advanced modulo 16 (rule R128). -/
def GroupCursor.after2A (g : GroupCursor) : GroupCursor := { g with rtState := g.rtState + 1 }

/-- GroupCursor after GROUP_4A: only `latest_minute` is written (rule R123). -/
def GroupCursor.after4A (g : GroupCursor) (t : TimeReading) : GroupCursor :=
  { g with latestMinute := minuteWord t.min }

/-- PTY or-ed into block 1 (rule R129). -/
def withPty (c : Cfg) (p : StationParams) (b1 : Block) : Block := b1 ||| (p.pty.setWidth 16 <<< c.ptyShift)

/-- The group NEXT_GROUP emits (rules R121, R122, R131). -/
def groupBlocks (c : Cfg) (p : StationParams) (g : GroupCursor) (t : TimeReading) : Blocks :=
  if ctCondition t g.latestMinute then ⟨p.pi, ctBlock1 c t, ctBlock2 c t, ctBlock3 t⟩
  else if g.state.val < 4 then
    ⟨p.pi, withPty c p (psBlock1 c p g), afWord c p.afPool g.afState, psBlock3 p g⟩
  else ⟨p.pi, withPty c p (rtBlock1 c g), rtPair p.rt g.rtState false, rtPair p.rt g.rtState true⟩

/-- GroupCursor after NEXT_GROUP (rules R121, R130, R131): `state` advances after a non-CT group only. -/
def groupCursorNext (p : StationParams) (g : GroupCursor) (t : TimeReading) : GroupCursor :=
  if ctCondition t g.latestMinute then g.after4A t
  else if g.state.val < 4 then { g.after0A p with state := g.state + 1 }
  else { g.after2A with state := g.state + 1 }

/-- The frame of four blocks: each block's 16 data bits then its 10 check bits, most significant first, blocks in order
(rules R61, R62, R135). -/
def frameBits (c : Cfg) (b : Blocks) : BitVec 104 :=
  b.b0 ++ checkword c 0 b.b0 ++ b.b1 ++ checkword c 1 b.b1 ++ b.b2 ++ checkword c 2 b.b2 ++
    b.b3 ++ checkword c 3 b.b3

/-- EMIT_FRAME (rule R135). -/
def State.emitFrame (c : Cfg) (b : Blocks) (s : State) : State := { s with bits := frameBits c b }

/-- NEXT_GROUP (rule R121): the snapshot, the group of the snapshot and the clock reading on the time port, the frame,
the cursors. -/
def State.nextGroup (c : Cfg) (s : State) : State :=
  State.emitFrame c (groupBlocks c s.params s.cursor s.timePort)
    { s with snap := s.params, cursor := groupCursorNext s.params s.cursor s.timePort }

/-- NEXT_GROUP (rule R121). -/
def execNextGroup (s : State) : Host.Outcome State Fault Refusal := .next (s.nextGroup hw)

/-- GROUP_4A (rule R123): `latest_minute` is written; blocks 1 to 3 are returned. -/
def execGroup4A (t : TimeReading) (s : State) : Host.Outcome State Fault Refusal :=
  .next (({ s with cursor := s.cursor.after4A t } : State).returned
    (.blocks (ctBlock1 hw t) (ctBlock2 hw t) (ctBlock3 t)))

/-- GROUP_0A (rule R126): reads `SNAP`; blocks 1 to 3, before PTY, are returned. -/
def execGroup0A (s : State) : Host.Outcome State Fault Refusal :=
  .next (({ s with cursor := s.cursor.after0A s.snap } : State).returned
    (.blocks (psBlock1 hw s.snap s.cursor) (afWord hw s.snap.afPool s.cursor.afState) (psBlock3 s.snap s.cursor)))

/-- GROUP_2A (rule R128): reads `SNAP`; blocks 1 to 3, before PTY, are returned. -/
def execGroup2A (s : State) : Host.Outcome State Fault Refusal :=
  .next (({ s with cursor := s.cursor.after2A } : State).returned
    (.blocks (rtBlock1 hw s.cursor) (rtPair s.snap.rt s.cursor.rtState false) (rtPair s.snap.rt s.cursor.rtState true)))

/-- AF_BLOCK (rule R127): reads `SNAP`, writes `af_state`; the 16 bits are returned. -/
def execAfBlock (s : State) : Host.Outcome State Fault Refusal :=
  .next (({ s with cursor := s.cursor.afterAf s.snap } : State).returned
    (.af (afWord hw s.snap.afPool s.cursor.afState)))

/-- EMIT_FRAME (rule R135). -/
def execEmitFrame (blk : Blocks) (s : State) : Host.Outcome State Fault Refusal := .next (s.emitFrame hw blk)

end Sys2Proof.Machine
end

