-- ==== Sys2Proof/Machine/Synthesizer.lean ====
section
/-! DEFINITION. The waveform synthesizer (43_synthesizer.md). -/
namespace Sys2Proof.Machine

/-- The differential encoder: `output_bit = previous_output_bit xor current_data_bit` (rule R152). -/
def diffEncode (previous data : Bool) : Bool := previous ^^ data

/-- OLA_ADD (rule R153): `F` taps of the signed waveform from `in_idx` on, then `in_idx` advances by `S` modulo `B`. -/
def State.olaAdd (c : Cfg) (d : Bool) (s : State) : State :=
  { s with synth := { s.synth with
      ring := overlapAdd c d s.synth.inIdx c.filterSize 0 s.synth.ring
      inIdx := (s.synth.inIdx + c.samplesPerBit) % c.ringSize } }

/-- The frame a bit is taken from: an exhausted frame is replaced by the next group's (rule R151). -/
def State.refill (c : Cfg) (s : State) : State :=
  if 104 ≤ s.synth.bitPos.val then
    let s := s.nextGroup c
    { s with synth := { s.synth with bitPos := 0 } }
  else s

/-- NEXT_BIT (rule R151). -/
def State.nextBit (c : Cfg) (s : State) : State :=
  let s := s.refill c
  let d := diffEncode s.synth.curOutput (s.bitAt s.synth.bitPos.val)
  let s := State.olaAdd c d { s with synth := { s.synth with curOutput := d } }
  { s with synth := { s.synth with bitPos := s.synth.bitPos + 1, sampleCount := 0 } }

/-- The envelope sample READ_OUT returns: `RING[out_idx]` (rule R154). -/
def State.envelopeOut (c : Cfg) (s : State) : Sample := ringGet c s.synth.ring s.synth.outIdx

/-- READ_OUT's effect (rule R154): the slot read is zeroed, `out_idx` advances by 1 modulo `B`. -/
def State.readOut (c : Cfg) (s : State) : State :=
  { s with synth := { s.synth with
      ring := ringClear c s.synth.ring s.synth.outIdx
      outIdx := (s.synth.outIdx + 1) % c.ringSize } }

/-- The 4-phase carrier {0, +1, 0, -1}: phases 0 and 2 give the constant `zero` (rules R155, R156). -/
def carrier (c : Cfg) (phase : Fin 4) (e : Sample) : Sample :=
  match phase with
  | 0 => c.zero
  | 1 => e
  | 2 => c.zero
  | 3 => c.neg e

/-- MODULATE's effect (rule R155): `phase` advances modulo 4. -/
def State.advancePhase (s : State) : State :=
  { s with synth := { s.synth with phase := s.synth.phase + 1 } }

/-- The end of SAMPLE (rule R150): `sample_count` is incremented and `y` is returned on the synthesis port. -/
def State.deliver (s : State) (y : Sample) : State :=
  { s with
    synth := { s.synth with sampleCount := s.synth.sampleCount + 1 }
    samplesOut := s.samplesOut ++ [y] }

/-- Step 1 of SAMPLE: a new bit is loaded when the current bit's span is exhausted (rule R150). -/
def State.loadBit (c : Cfg) (s : State) : State :=
  if c.samplesPerBit ≤ s.synth.sampleCount.val then s.nextBit c else s

/-- The value SAMPLE returns (rule R150). -/
def State.sampleValue (c : Cfg) (s : State) : Sample :=
  let s := s.loadBit c
  carrier c s.synth.phase (s.envelopeOut c)

/-- SAMPLE (rule R150). -/
def State.sample (c : Cfg) (s : State) : State :=
  State.deliver ((s.loadBit c).readOut c).advancePhase (s.sampleValue c)

/-- PRODUCE: `count` times SAMPLE with nothing in between (rule R158), so every NEXT_GROUP of it samples the one reading held
on the time port. A command, a reset or a new reading between two samples splits the request into such pieces
(`Instant.next`; log entry 11). -/
def State.produce (c : Cfg) : Nat → State → State
  | 0, s => s
  | n + 1, s => State.produce c n (s.sample c)

/-- SAMPLE (rule R150). -/
def execSample (s : State) : Host.Outcome State Fault Refusal := .next (s.sample hw)

/-- PRODUCE (rule R158). -/
def execProduce (count : Nat) (s : State) : Host.Outcome State Fault Refusal := .next (s.produce hw count)

/-- NEXT_BIT (rule R151). -/
def execNextBit (s : State) : Host.Outcome State Fault Refusal := .next (s.nextBit hw)

/-- OLA_ADD (rule R153). -/
def execOlaAdd (d : Bool) (s : State) : Host.Outcome State Fault Refusal := .next (s.olaAdd hw d)

/-- READ_OUT (rule R154): the slot's value is returned. -/
def execReadOut (s : State) : Host.Outcome State Fault Refusal :=
  .next ((s.readOut hw).returned (.sample (s.envelopeOut hw)))

/-- MODULATE (rule R155): the product with the carrier is returned. -/
def execModulate (e : Sample) (s : State) : Host.Outcome State Fault Refusal :=
  .next (s.advancePhase.returned (.sample (carrier hw s.synth.phase e)))

end Sys2Proof.Machine
end

