-- ==== Sys2Proof/Machine/System.lean ====
section
/-! DEFINITION. RESET (rule R230). -/
namespace Sys2Proof.Machine

/-- RESET's effect: every piece of state of 10_state.md takes its reset value at one instant; what the outside still
presents and what it already received are not state of the hardware and stay (log entry 16). -/
def State.resetHardware (c : Cfg) (s : State) : State :=
  { State.resetOf c with
    pending := s.pending
    timePort := s.timePort
    samplesOut := s.samplesOut
    histReqs := s.histReqs }

/-- RESET (rule R230). No `hist_req` is emitted. -/
def execReset (s : State) : Host.Outcome State Fault Refusal := .next (s.resetHardware hw)

end Sys2Proof.Machine
end

