-- ==== Sys2Proof/Machine/Dispatch.lean ====
section
/-! DEFINITION. One arm per operation, each a direct call of its meaning. -/
namespace Sys2Proof.Machine

-- One operation on a state.
def exec (i : Instr) (s : State) : Host.Outcome State Fault Refusal :=
  match i with
  | .setPi pi => Sys2Proof.Machine.execSetPi pi s
  | .setPs len chars => Sys2Proof.Machine.execSetPs len chars s
  | .setRt len chars => Sys2Proof.Machine.execSetRt len chars s
  | .setTa ta => Sys2Proof.Machine.execSetTa ta s
  | .setPty pty => Sys2Proof.Machine.execSetPty pty s
  | .addAfHz hz => Sys2Proof.Machine.execAddAfHz hz s
  | .addAfCode code => Sys2Proof.Machine.execAddAfCode code s
  | .clearAf => Sys2Proof.Machine.execClearAf s
  | .setSuppress on => Sys2Proof.Machine.execSetSuppress on s
  -- The reserved opcode and its operands are ignored (rule R203).
  | .cmdReserved _ => Sys2Proof.Machine.execCmdReserved s
  | .sample => Sys2Proof.Machine.execSample s
  | .produce count => Sys2Proof.Machine.execProduce count s
  | .crc10 block => Sys2Proof.Machine.execCrc10 block s
  | .mhzToCode hz => Sys2Proof.Machine.execMhzToCode hz s
  | .nextGroup => Sys2Proof.Machine.execNextGroup s
  | .group4A t => Sys2Proof.Machine.execGroup4A t s
  | .group0A => Sys2Proof.Machine.execGroup0A s
  | .group2A => Sys2Proof.Machine.execGroup2A s
  | .afBlock => Sys2Proof.Machine.execAfBlock s
  | .emitFrame blk => Sys2Proof.Machine.execEmitFrame blk s
  | .nextBit => Sys2Proof.Machine.execNextBit s
  | .olaAdd d => Sys2Proof.Machine.execOlaAdd d s
  | .readOut => Sys2Proof.Machine.execReadOut s
  | .modulate e => Sys2Proof.Machine.execModulate e s
  | .reset => Sys2Proof.Machine.execReset s

end Sys2Proof.Machine
end

