-- ==== Sys2Proof/WellFormed.lean ====
section
/-! DEFINITION. Which operations are well formed: the operand fields of every command admit every value of their width
(rule R76b), so the one check is that CMD_RESERVED carries a reserved opcode (rule R203). -/
namespace Sys2Proof

/-- The reserved command opcodes: 0x0 and 0xA..0xF (rules R65, R76a). -/
def reservedOp (op : BitVec 4) : Bool := op == 0x0#4 || decide (10 ≤ op.toNat)

/-- Well-formedness of an operation as syntax. -/
def Instr.wf : Instr → Bool
  | .cmdReserved op => reservedOp op
  | .setPi _ => true
  | .setPs _ _ => true
  | .setRt _ _ => true
  | .setTa _ => true
  | .setPty _ => true
  | .addAfHz _ => true
  | .addAfCode _ => true
  | .clearAf => true
  | .setSuppress _ => true
  | .sample => true
  | .produce _ => true
  | .crc10 _ => true
  | .mhzToCode _ => true
  | .nextGroup => true
  | .group4A _ => true
  | .group0A => true
  | .group2A => true
  | .afBlock => true
  | .emitFrame _ => true
  | .nextBit => true
  | .olaAdd _ => true
  | .readOut => true
  | .modulate _ => true
  | .reset => true

/-- The commands of the control port (rule R65): the control actor's operations. -/
def Instr.isCommand : Instr → Bool
  | .setPi _ => true
  | .setPs _ _ => true
  | .setRt _ _ => true
  | .setTa _ => true
  | .setPty _ => true
  | .addAfHz _ => true
  | .addAfCode _ => true
  | .clearAf => true
  | .setSuppress _ => true
  | .cmdReserved _ => true
  | .sample => false
  | .produce _ => false
  | .crc10 _ => false
  | .mhzToCode _ => false
  | .nextGroup => false
  | .group4A _ => false
  | .group0A => false
  | .group2A => false
  | .afBlock => false
  | .emitFrame _ => false
  | .nextBit => false
  | .olaAdd _ => false
  | .readOut => false
  | .modulate _ => false
  | .reset => false

/-- The internal micro-operations (format UOP of rule R78): selected by no port (decision D22). -/
def Instr.isMicro : Instr → Bool
  | .crc10 _ => true
  | .mhzToCode _ => true
  | .nextGroup => true
  | .group4A _ => true
  | .group0A => true
  | .group2A => true
  | .afBlock => true
  | .emitFrame _ => true
  | .nextBit => true
  | .olaAdd _ => true
  | .readOut => true
  | .modulate _ => true
  | .setPi _ => false
  | .setPs _ _ => false
  | .setRt _ _ => false
  | .setTa _ => false
  | .setPty _ => false
  | .addAfHz _ => false
  | .addAfCode _ => false
  | .clearAf => false
  | .setSuppress _ => false
  | .cmdReserved _ => false
  | .sample => false
  | .produce _ => false
  | .reset => false

end Sys2Proof
end

