-- ==== Sys2Proof/Decode.lean ====
section
/-! DEFINITION. What the ports present, the decoder from it to an operation, and the encoder. Sources: rules R64, R65
(CMD word), R78 (strobes, `uop` indices), spec/opcode_table.json. -/
namespace Sys2Proof

/-- The operand that accompanies a micro-operation. The spec gives the micro-operations an index and operands but no
bit layout, so the operand stands beside the index as a value (log entry 14). -/
inductive UopOperand where
  | none
  | block (b : Block)
  | hz (f : BitVec 32)
  | time (t : TimeReading)
  | blocks (b : Blocks)
  | bit (d : Bool)
  | sample (e : Sample)
deriving DecidableEq, Repr

/-- A micro-operation as selected inside the hardware: its `uop` index (rule R78, decision D22) and its operand. -/
structure UopWord where
  index : BitVec 4
  operand : UopOperand
deriving DecidableEq, Repr

/-- What can select an operation (rule R78): a command word, the sample strobe, a request for `n` samples, the reset
strobe, or the internal `uop` index. -/
inductive PortWord where
  | control (w : CmdWord)
  | synth (strobe : BitVec 1)
  | produce (count : Nat)
  | rst (strobe : BitVec 1)
  | uop (u : UopWord)
deriving DecidableEq, Repr

/-- Why a word selects no operation. -/
inductive DecodeError where
  /-- The synthesis port's strobe is 0: no sample is requested. -/
  | noSampleRequest
  /-- The reset port's strobe is 0. -/
  | noResetRequest
  /-- `uop` index 12..15, which rule R78 assigns to nothing. -/
  | unassignedUop (index : BitVec 4)
  /-- A `uop` index with an operand of another operation. -/
  | operandMismatch (index : BitVec 4)
deriving DecidableEq, Repr

/-- Lane `k` of `data`, 0 beyond the last. -/
def CmdWord.lane (w : CmdWord) (k : Nat) : Byte := w.data.toArray.getD k 0

/-- `data[15:0]` (rule R64). -/
def CmdWord.low16 (w : CmdWord) : BitVec 16 := w.lane 1 ++ w.lane 0

/-- `data[31:0]` (rule R64). -/
def CmdWord.low32 (w : CmdWord) : BitVec 32 := w.lane 3 ++ w.lane 2 ++ w.lane 1 ++ w.lane 0

/-- `data[0]` (rule R64). -/
def CmdWord.bit0 (w : CmdWord) : Bool := (w.lane 0).getLsbD 0

/-- The first `n` character lanes: character `k` is `data[8k+7:8k]` (rule R64). -/
def CmdWord.chars (n : Nat) (w : CmdWord) : Vector Byte n := Vector.ofFn fun k : Fin n => w.lane k.val

/-- The lanes that hold the given bytes, the first in lane 0, the rest zero. -/
def toLanes (bytes : List Byte) : Vector Byte 64 := Vector.ofFn fun k : Fin 64 => bytes.getD k.val 0

/-- A command word's operation (rules R64, R65). Fields a command does not use are ignored. -/
def decodeCmd (w : CmdWord) : Instr :=
  match w.op.toNat with
  | 1 => .setPi w.low16
  | 2 => .setPs w.len (w.chars 8)
  | 3 => .setRt w.len (w.chars 64)
  | 4 => .setTa w.bit0
  | 5 => .setPty (w.lane 0)
  | 6 => .addAfHz w.low32
  | 7 => .addAfCode (w.lane 0)
  | 8 => .clearAf
  | 9 => .setSuppress w.bit0
  | _ => .cmdReserved w.op

/-- A micro-operation's word (rule R78). -/
def decodeUop (u : UopWord) : Except DecodeError Instr :=
  match u.index.toNat, u.operand with
  | 0, .block b => .ok (.crc10 b)
  | 1, .hz f => .ok (.mhzToCode f)
  | 2, .none => .ok .nextGroup
  | 3, .time t => .ok (.group4A t)
  | 4, .none => .ok .group0A
  | 5, .none => .ok .group2A
  | 6, .none => .ok .afBlock
  | 7, .blocks b => .ok (.emitFrame b)
  | 8, .none => .ok .nextBit
  | 9, .bit d => .ok (.olaAdd d)
  | 10, .none => .ok .readOut
  | 11, .sample e => .ok (.modulate e)
  | n, _ => if 12 ≤ n then .error (.unassignedUop u.index) else .error (.operandMismatch u.index)

/-- The operation a port word selects, or the named reason why it selects none. Total. -/
def decode : PortWord → Except DecodeError Instr
  | .control w => .ok (decodeCmd w)
  | .synth strobe => if strobe = 1#1 then .ok .sample else .error .noSampleRequest
  | .produce n => .ok (.produce n)
  | .rst strobe => if strobe = 1#1 then .ok .reset else .error .noResetRequest
  | .uop u => decodeUop u

/-- The command word whose bits are the number `w` of `nbits` bits, every bit above it zero: `op` is bits 3:0, `len` bits
10:4 and `data` bits 522:11 (log entry 3). -/
def CmdWord.ofBits (nbits w : Nat) : CmdWord :=
  let v := w % 2 ^ nbits
  { op := BitVec.ofNat 4 v
    len := BitVec.ofNat 7 (v >>> 4)
    data := Vector.ofFn fun k : Fin 64 => BitVec.ofNat 8 (v >>> (11 + 8 * k.val)) }

/-- The operation read from a table word of `nbits` bits: the word stands on the control port (log entry 4). -/
def decodeTableWord (nbits w : Nat) : Option Instr :=
  match decode (.control (CmdWord.ofBits nbits w)) with
  | .ok i => some i
  | .error _ => none

/-- A command word with its unused lanes zero. -/
def cmdWord (op : BitVec 4) (len : BitVec 7) (bytes : List Byte) : PortWord := .control ⟨op, len, toLanes bytes⟩

/-- The bytes of a 16-bit and a 32-bit scalar, the low byte first. -/
def bytes16 (v : BitVec 16) : List Byte := [v.extractLsb' 0 8, v.extractLsb' 8 8]
def bytes32 (v : BitVec 32) : List Byte :=
  [v.extractLsb' 0 8, v.extractLsb' 8 8, v.extractLsb' 16 8, v.extractLsb' 24 8]

/-- A one-bit scalar in `data[0]`. -/
def byteOfBit (b : Bool) : Byte := if b then 1#8 else 0#8

/-- The port word of an operation, unused fields zero. -/
def encode : Instr → PortWord
  | .setPi pi => cmdWord 0x1#4 0 (bytes16 pi)
  | .setPs len c => cmdWord 0x2#4 len c.toList
  | .setRt len c => cmdWord 0x3#4 len c.toList
  | .setTa ta => cmdWord 0x4#4 0 [byteOfBit ta]
  | .setPty pty => cmdWord 0x5#4 0 [pty]
  | .addAfHz hz => cmdWord 0x6#4 0 (bytes32 hz)
  | .addAfCode code => cmdWord 0x7#4 0 [code]
  | .clearAf => cmdWord 0x8#4 0 []
  | .setSuppress on => cmdWord 0x9#4 0 [byteOfBit on]
  | .cmdReserved op => cmdWord op 0 []
  | .sample => .synth 1#1
  | .produce n => .produce n
  | .crc10 b => .uop ⟨0x0#4, .block b⟩
  | .mhzToCode f => .uop ⟨0x1#4, .hz f⟩
  | .nextGroup => .uop ⟨0x2#4, .none⟩
  | .group4A t => .uop ⟨0x3#4, .time t⟩
  | .group0A => .uop ⟨0x4#4, .none⟩
  | .group2A => .uop ⟨0x5#4, .none⟩
  | .afBlock => .uop ⟨0x6#4, .none⟩
  | .emitFrame b => .uop ⟨0x7#4, .blocks b⟩
  | .nextBit => .uop ⟨0x8#4, .none⟩
  | .olaAdd d => .uop ⟨0x9#4, .bit d⟩
  | .readOut => .uop ⟨0xA#4, .none⟩
  | .modulate e => .uop ⟨0xB#4, .sample e⟩
  | .reset => .rst 1#1

end Sys2Proof
end

