-- ==== Sys2Proof/Machine/Ports.lean ====
section
/-! DEFINITION. The ports: which operation is next in the total order of rule R48, and placing a command word on the
control port. -/
namespace Sys2Proof.Machine

/-- An instant at which the control port alone presents a command word. -/
def Instant.ofCommand (w : CmdWord) : Instant where
  time := none
  reset := false
  synth := .idle
  control := some w

/-- An instant at which the synthesis port alone requests samples. -/
def Instant.ofSynth (r : SynthRequest) : Instant where
  time := none
  reset := false
  synth := r
  control := none

/-- The instant of an event between two samples of a PRODUCE: the synthesis port requests nothing new at it. -/
def Between.instant (b : Between) : Instant where
  time := b.time
  reset := b.reset
  synth := .idle
  control := b.control

/-- What falls between the samples of a request; nothing for one that is no PRODUCE. -/
def SynthRequest.between : SynthRequest → List Between
  | .idle => []
  | .sample => []
  | .produce _ between => between

/-- The events still to come once one more sample is done: the first of them is one sample nearer. -/
def sampleNearer : List Between → List Between
  | [] => []
  | b :: bs => { b with after := b.after - 1 } :: bs

/-- What one instant presents next, and what is left of it. RESET wins over everything presented with it (rule R207d);
otherwise the sample comes before the command (rule R53). PRODUCE is `n` SAMPLE requests (rule R158): it is presented
in pieces, each the samples up to the next event that falls between two of them, and a command of the instant itself
comes after the first sample (rule R53; log entry 11). Events placed after more samples than are requested come after
the last. DESIGN CHOICE (log entry 11): an event placed after 0 samples comes before the first sample, but where a
command stands at the request's own instant it comes after the first sample and after that command; a RESET at the
request's instant drops the request and leaves its events. -/
def Instant.next (i : Instant) : Option PortWord × List Instant :=
  if i.reset then (some (.rst 1#1), i.synth.between.map Between.instant)
  else
    match i.synth, i.control with
    | .idle, none => (none, [])
    | .idle, some w => (some (.control w), [])
    | .sample, none => (some (.synth 1#1), [])
    | .sample, some w => (some (.synth 1#1), [Instant.ofCommand w])
    | .produce n [], none => (some (.produce n), [])
    | .produce n (b :: bs), none =>
      (some (.produce (min b.after n)), [b.instant, Instant.ofSynth (.produce (n - b.after) bs)])
    | .produce 0 bs, some w => (some (.produce 0), Instant.ofCommand w :: bs.map Between.instant)
    | .produce (n + 1) bs, some w =>
      (some (.synth 1#1), [Instant.ofCommand w, Instant.ofSynth (.produce n (sampleNearer bs))])

/-- The next word the ports present, if any, and the state once it is presented: a reading driven at that instant stands
on the time port. With nothing pending nothing happens (rules R219, R231). -/
def State.present (s : State) : Option PortWord × State :=
  match s.pending with
  | [] => (none, s)
  | i :: rest =>
    (i.next.1, { s with timePort := i.time.getD s.timePort, pending := i.next.2 ++ rest })

/-- The state with a command word presented next on the control port. -/
def State.withCommand (s : State) (w : CmdWord) : State := { s with pending := Instant.ofCommand w :: s.pending }

end Sys2Proof.Machine
end

