-- ==== Sys2Proof/Machine/Step.lean ====
section
/-! DEFINITION. One step: the next operation of the total order (rule R48) is taken and done, atomically (rule R44). -/
namespace Sys2Proof.Machine

/-- One step. Nothing presented, or a strobe that requests nothing, leaves the hardware as it is (rules R219, R231). -/
def step (s : State) : Host.Outcome State Fault Refusal :=
  match s.present with
  | (none, s') => .next s'
  | (some w, s') =>
    match decode w with
    | .ok i => exec i s'
    | .error _ => .next s'

/-- `s` with the command word of `nbits` bits `w`, all bits above zero, presented next on the control port (log entry
2). -/
def State.withFetchWord (s : State) (nbits w : Nat) : State :=
  s.withCommand (CmdWord.ofBits nbits w)

end Sys2Proof.Machine
end

