-- ==== Sys2Proof/Machine/HostSide.lean ====
section
/-! DEFINITION. The host's side of the control port: which command a line of the text channel becomes (rules R181, R182),
and the command sequence of a history reload (rules R183 to R187). None of it is hardware; lines are taken already parsed,
because the spec leaves the parsing of text open (N14, N25; log entry 15). -/
namespace Sys2Proof.Machine

/-- A line of the command channel, its argument parsed (rule R181). -/
inductive ChannelLine where
  | ps (text : List Byte)
  | rt (text : List Byte)
  | ta (arg : List Byte)
  | pty (n : BitVec 8)
  | afClear
  | afHz (hz : BitVec 32)
  | pi (code : BitVec 16)
  /-- An unrecognised keyword or a malformed argument (rule R182b). -/
  | malformed
deriving DecidableEq, Repr

/-- The `len` field for a text: its number of characters, saturated at what the 7-bit field holds. -/
def portLen (text : List Byte) : BitVec 7 := BitVec.ofNat 7 (min text.length 127)

/-- The first `n` characters of a text on the port's lanes; lanes beyond the text are 0 and not read. -/
def portChars (n : Nat) (text : List Byte) : Vector Byte n := Vector.ofFn fun k : Fin n => text.getD k.val 0

/-- `ON` in character codes. -/
def onWord : List Byte := [0x4F#8, 0x4E#8]

/-- The command a channel line becomes, if any (rules R181, R182): an RT line is dropped while an external radio-text
source is active, a malformed line is ignored. -/
def channelCommand (externalRt : Bool) : ChannelLine → Option Instr
  | .ps text => some (.setPs (portLen text) (portChars 8 text))
  | .rt text => if externalRt then none else some (.setRt (portLen text) (portChars 64 text))
  | .ta arg => some (.setTa (arg == onWord))
  | .pty n => some (.setPty n)
  | .afClear => some .clearAf
  | .afHz hz => some (.addAfHz hz)
  | .pi code => some (.setPi code)
  | .malformed => none

/-- A line of the history file (rule R185). DESIGN CHOICE (log entry 15): a PS line holds all 8 characters and an RT line all
64, trailing spaces included, which the spec leaves open (N25). -/
inductive HistoryLine where
  | pi (code : BitVec 16)
  | psvarOn
  | ps (text : Vector Byte 8)
  | rt (text : Vector Byte 64)
  /-- The number as SET_PTY takes it: 8 bits, clamped there (rules R105, R184). -/
  | pty (n : BitVec 8)
  | taOn
  | af (codes : List Byte)
  /-- A malformed line, skipped (rule R188). -/
  | malformed
deriving DecidableEq, Repr

/-- What `reload_history` returns (rule R184). -/
inductive ReloadResult where
  | notReused
  | reused
  | reusedVarying
deriving DecidableEq, Repr

/-- The commands one history line becomes (rule R184). PS is presented with `len` 8 and RT with `len` 64, the lengths of the
lines: DESIGN CHOICE, log entry 15. -/
def historyCommands (preferExternalRt : Bool) : HistoryLine → List Instr
  | .pi code => [.setPi code]
  | .psvarOn => []
  | .ps text => [.setPs 8 text]
  | .rt text => if preferExternalRt then [] else [.setRt 64 text]
  | .pty n => [.setPty n]
  | .taOn => [.setTa true]
  | .af codes => codes.map Instr.addAfCode
  | .malformed => []

/-- `reload_history` as a command sequence: SET_SUPPRESS 1, each line in file order, SET_SUPPRESS 0 (rules R79, R184). It
sends no CLEAR_AF first, so the codes of an AF line are appended to the pool already held, and where that is full they are
rejected. Whether a reload clears the pool is left open (R184, N25): DESIGN CHOICE, log entry 15. -/
def reloadCommands (preferExternalRt : Bool) (lines : List HistoryLine) : List Instr :=
  Instr.setSuppress true :: (lines.flatMap (historyCommands preferExternalRt) ++ [Instr.setSuppress false])

/-- `reload_history`: no file, no commands; otherwise the sequence, and whether a PSVAR marker was present (rule R184). -/
def reloadHistory (preferExternalRt : Bool) : Option (List HistoryLine) → ReloadResult × List Instr
  | none => (.notReused, [])
  | some lines =>
    (if lines.contains .psvarOn then .reusedVarying else .reused, reloadCommands preferExternalRt lines)

/-- `write_history` in the order of the file format (rules R183, R185). -/
def writeHistory (varying : Bool) (p : StationParams) : List HistoryLine :=
  [.pi p.pi] ++ (if varying then [.psvarOn] else []) ++ [.ps p.ps, .rt p.rt, .pty (p.pty.setWidth 8)] ++
    (if p.ta then [.taOn] else []) ++ (if p.afPool.isEmpty then [] else [.af p.afPool])

/-- Operations done one after the other (rule R48). -/
def execAll : List Instr → State → Host.Outcome State Fault Refusal
  | [], s => .next s
  | i :: is, s =>
    match exec i s with
    | .next s' => execAll is s'
    | .fault r => .fault r
    | .refused r => .refused r

end Sys2Proof.Machine
end

