-- ==== Sys2Proof/Safety.lean ====
section
/-! DEFINITION. The terms claims are stated in: the invariants of the state, the closed form of the pulse shaper, and
relations between states. -/
namespace Sys2Proof.Machine

/-- The AF pool holds at most 25 codes, each in 1..204 (rules R16, R17). -/
abbrev poolWf (pool : List Byte) : Prop := pool.length ≤ afMax ∧ ∀ c ∈ pool, afCodeLo ≤ c.toNat ∧ c.toNat ≤ afCodeHi

/-- The part of the invariant of StationParams the hardware enforces (rules R16, R17); `pty <= 31` is in its type. -/
abbrev StationParams.Wf (p : StationParams) : Prop := poolWf p.afPool

/-- `latest_minute` is -1 or a 6-bit minute (rule R25, U4). -/
abbrev minuteLegal (m : BitVec 7) : Prop := m = 0x7F#7 ∨ m.toNat < 64

/-- `ps_state = state` whenever `state < 4`, and `ps_state = 0` when `state = 4` (rule R126). -/
abbrev GroupCursor.Aligned (g : GroupCursor) : Prop := g.psState.val = if g.state.val < 4 then g.state.val else 0

/-- The ring has `B` slots and its cursors lie in it (rules R30, R34). -/
structure SynthState.Shape (c : Cfg) (y : SynthState) : Prop where
  ringLength : y.ring.length = c.ringSize
  inIdx_lt : y.inIdx < c.ringSize
  outIdx_lt : y.outIdx < c.ringSize

/-- The envelope owed at time `t`, counted from the load of the most recent bit, for the encoded bits `ds`, newest first:
pulse value `j` of a bit is due `j + 1` samples after it was loaded, a bit `m` back was loaded `m*S` samples earlier, and
contributions are added in increasing order of the bits, from `zero` (rules R159, R163). -/
def envelope (c : Cfg) : List Bool → Nat → Sample
  | [], _ => c.zero
  | d :: ds, t =>
    let earlier := envelope c ds (t + c.samplesPerBit)
    if 1 ≤ t ∧ t ≤ c.filterSize then c.add earlier (pulse c d (t - 1)) else earlier

/-- What the ring holds after the bits `ds` (newest first) were loaded: the slot `o` places after the read cursor holds
exactly the envelope due at that read time (rules R159, R163), and the read cursor trails the write cursor as the reset
values set it (rule R160). -/
structure RingHolds (c : Cfg) (ds : List Bool) (s : State) : Prop where
  shape : s.synth.Shape c
  trail : (s.synth.outIdx + 1 + c.samplesPerBit) % c.ringSize = (s.synth.inIdx + s.synth.sampleCount.val) % c.ringSize
  slots : ∀ o, o < c.ringSize →
    ringGet c s.synth.ring ((s.synth.outIdx + o) % c.ringSize) = envelope c ds (s.synth.sampleCount.val + o)

/-- `BITS` is a whole frame: four blocks, each with its own checkword (rules R49, R135). -/
def FrameWhole (c : Cfg) (bits : BitVec 104) : Prop := ∃ b : Blocks, bits = frameBits c b

/-- The invariant of the machine: pool bounds (R16, R17), a legal minute (R25), the cursors aligned (R126), a whole frame
while bits of it remain (R49), the carrier phase in step with the bit (R156), and the ring (R163). -/
structure State.Inv (s : State) : Prop where
  params : s.params.Wf
  snap : s.snap.Wf
  minute : minuteLegal s.cursor.latestMinute
  aligned : s.cursor.Aligned
  frame : s.synth.bitPos ≠ 104 → FrameWhole hw s.bits
  phase : s.synth.phase.val = s.synth.sampleCount.val % 4
  ring : ∃ ds, RingHolds hw ds s

/-- The control actor's part of the state is the same in both (rule R215). -/
structure SameControl (s t : State) : Prop where
  params : t.params = s.params
  suppressWrite : t.suppressWrite = s.suppressWrite
  cmdStatus : t.cmdStatus = s.cmdStatus
  histReqs : t.histReqs = s.histReqs

/-- The synthesis actor's part of the state is the same in both (rule R215): GroupCursor, `SNAP`, `BITS`, SynthesisState
and the samples returned. -/
structure SameSynthesis (s t : State) : Prop where
  snap : t.snap = s.snap
  cursor : t.cursor = s.cursor
  bits : t.bits = s.bits
  synth : t.synth = s.synth
  samplesOut : t.samplesOut = s.samplesOut

/-- What the outside presents, and the model's result field, are the same in both. -/
structure SameInputs (s t : State) : Prop where
  pending : t.pending = s.pending
  timePort : t.timePort = s.timePort
  result : t.result = s.result

/-- The next SAMPLE does not run NEXT_GROUP: a bit is still being shaped, or the frame still has a bit (rules R150, R151). -/
def State.midGroup (s : State) : Prop := s.synth.sampleCount.val < 192 ∨ s.synth.bitPos.val < 104

/-- The encoded bits of a data bit sequence from a given cell (rule R152). -/
def encodeBits : Bool → List Bool → List Bool
  | _, [] => []
  | d, b :: bs => diffEncode d b :: encodeBits (diffEncode d b) bs

/-- Reverse differential decoding: `b[k] = d[k] xor d[k-1]` (rule R152). -/
def decodeBits : Bool → List Bool → List Bool
  | _, [] => []
  | d, e :: es => (e ^^ d) :: decodeBits e es

/-- The polynomial over GF(2) of a word: bit `i` is the coefficient of `x^i` (rule R90). -/
noncomputable def polyOf {n : Nat} (v : BitVec n) : Polynomial (ZMod 2) :=
  ∑ i ∈ Finset.range n, if v.getLsbD i then Polynomial.X ^ i else 0

/-- `g(x) = x^10 + x^8 + x^7 + x^5 + x^4 + x^3 + 1` (rule R90). -/
noncomputable def generator : Polynomial (ZMod 2) :=
  Polynomial.X ^ 10 + Polynomial.X ^ 8 + Polynomial.X ^ 7 + Polynomial.X ^ 5 + Polynomial.X ^ 4 + Polynomial.X ^ 3 + 1

/-- Block 1 of the frame in `BITS`: `BITS[26..41]`, most significant first (rule R62). -/
def frameBlock1 (bits : BitVec 104) : Block := bits.extractLsb' 62 16

/-- The group type code of a frame: bits 15:12 of block 1 (rules R9, R68, R69, R70). -/
def groupType (bits : BitVec 104) : BitVec 4 := (frameBlock1 bits).extractLsb' 12 4

/-- Days of a month in the Gregorian calendar. -/
def daysInMonth (y m : Nat) : Nat :=
  if m = 2 then (if y % 4 = 0 ∧ (y % 100 ≠ 0 ∨ y % 400 = 0) then 29 else 28)
  else if m = 4 ∨ m = 6 ∨ m = 9 ∨ m = 11 then 30 else 31

/-- A date of the Gregorian calendar. -/
abbrev validDate (y m d : Nat) : Prop := 1 ≤ m ∧ m ≤ 12 ∧ 1 ≤ d ∧ d ≤ daysInMonth y m

/-- The date after a date, as (year, month, day). -/
def nextDay (y m d : Nat) : Nat × Nat × Nat :=
  if d < daysInMonth y m then (y, m, d + 1) else if m < 12 then (y, m + 1, 1) else (y + 1, 1, 1)

/-- The bytes AF_BLOCK transmits in one pass over a pool, high byte before low byte (rules R41, R127). -/
def afPass (c : Cfg) (pool : List Byte) : List Byte :=
  (List.range (afEmissions pool.length)).flatMap fun e =>
    let w := afWord c pool (Fin.ofNat 13 e)
    [w.extractLsb' 8 8, w.extractLsb' 0 8]

end Sys2Proof.Machine
end

