-- ==== Sys2Proof/Certificates/Slice0/Obligations.lean ====
section
/-! DEFINITION. The statements for the provers, from the numbered rules of spec/. A conclusion `exec i s = .next (...)` is
the operation's completion, its result and its frame at once: every field not named is unchanged. Two representations are
the model's throughout: `histReqs` counts the `hist_req` events emitted (log entry 16), and the AF pool is a list whose
length is `AF_COUNT` (log entry 10). -/
open Sys2Proof Sys2Proof.Machine

/-! ### Encoding -/

/-- Decode and encode agree for every well-formed operation, every operand at every value (rules R64, R65, R78). The
places of operands beside a `uop` index are the model's (log entry 14). -/
def Obligations.DecodeOfEncode : Prop := ∀ i : Instr, i.wf = true → decode (encode i) = .ok i

/-- Whatever the decoder reads is well formed: where it answers CMD_RESERVED, the opcode it carries is a reserved one
(rules R65, R76). -/
def Obligations.DecodedOperationsAreWellFormed : Prop := ∀ (w : PortWord) (i : Instr), decode w = .ok i → i.wf = true

/-- The command opcode map (rule R65), for every `len` and `data`: unused fields are ignored, an operand stands in the
low bits of `data`, character `k` in lane `k`. -/
def Obligations.CommandOpcodeMap : Prop :=
  ∀ (len : BitVec 7) (data : Vector Byte 64),
    decode (.control ⟨0x1, len, data⟩) = .ok (.setPi (data[1] ++ data[0])) ∧
    (∃ c : Vector Byte 8, decode (.control ⟨0x2, len, data⟩) = .ok (.setPs len c) ∧
      ∀ k : Fin 8, c.get k = data[k.val]) ∧
    decode (.control ⟨0x3, len, data⟩) = .ok (.setRt len data) ∧
    decode (.control ⟨0x4, len, data⟩) = .ok (.setTa (data[0].getLsbD 0)) ∧
    decode (.control ⟨0x5, len, data⟩) = .ok (.setPty data[0]) ∧
    decode (.control ⟨0x6, len, data⟩) = .ok (.addAfHz (data[3] ++ data[2] ++ data[1] ++ data[0])) ∧
    decode (.control ⟨0x7, len, data⟩) = .ok (.addAfCode data[0]) ∧
    decode (.control ⟨0x8, len, data⟩) = .ok .clearAf ∧
    decode (.control ⟨0x9, len, data⟩) = .ok (.setSuppress (data[0].getLsbD 0)) ∧
    ∀ op : BitVec 4, op = 0 ∨ 10 ≤ op.toNat → decode (.control ⟨op, len, data⟩) = .ok (.cmdReserved op)

/-- A few words written out from the encodings (rules R65, R78): `0x1/0/0x1234`, CLEAR_AF, a reserved opcode, the
strobes, two `uop` indices. The model's choices in it: the places of `len` and `data` in one word (log entry 3), that a
table word is read as a control-port word (log entry 4: 0x8 is `uop` 8 as well), and the places of operands beside a
`uop` index and the refusal of index 15 by name (log entry 14). -/
def Obligations.SampleWordsDecode : Prop :=
  decodeTableWord 32 (0x1234 <<< 11 ||| 0x1) = some (.setPi 0x1234) ∧
  decodeTableWord 8 0x8 = some .clearAf ∧
  decodeTableWord 8 0xA = some (.cmdReserved 0xA) ∧
  decode (.synth 1#1) = .ok .sample ∧ decode (.rst 1#1) = .ok .reset ∧
  decode (.uop ⟨0b1010, .none⟩) = .ok .readOut ∧ decode (.uop ⟨0b1111, .none⟩) = .error (.unassignedUop 0b1111)

/-! ### The step -/

/-- A step runs the decoded operation on the state in which it is presented (rule R48); the model's step adds nothing
else. What is presented is held in `pending` (log entry 1). -/
def Obligations.StepRunsDecodedOperation : Prop :=
  ∀ (s s' : State) (w : PortWord) (i : Instr), s.present = (some w, s') → decode w = .ok i → step s = exec i s'

/-- With nothing presented the machine holds its state (rules R219, R231). -/
def Obligations.StepHoldsStateWhenIdle : Prop := ∀ s : State, s.pending = [] → step s = .next s

/-- Same-instant order at an instant that presents a command: a SAMPLE first, then the command; a sample of a PRODUCE
likewise; RESET wins over everything presented with it (rules R53, R207). The reading driven at the instant stands on
the time port. The model's choices in it: a command presented at the instant of a PRODUCE falls after its FIRST sample,
and before the request's events, even one placed before the first sample; a RESET at the instant of a PRODUCE drops the
request while its events stay pending (log entry 11); the form of an instant and of the port that holds a reading (log
entries 1, 12). The other instants are in EachInstantPresentsItsOperation. -/
def Obligations.SampleBeforeCommandAndResetFirst : Prop :=
  ∀ (s : State) (i : Instant) (rest : List Instant) (w : CmdWord), s.pending = i :: rest → i.control = some w →
    (i.reset = true →
      step s = exec .reset { s with
        timePort := i.time.getD s.timePort
        pending := i.synth.between.map Between.instant ++ rest }) ∧
    (i.reset = false → i.synth = .sample →
      ∃ t, step s = exec .sample { s with timePort := i.time.getD s.timePort, pending := Instant.ofCommand w :: rest } ∧
        step s = .next t ∧ step t = exec (decodeCmd w) { t with pending := rest }) ∧
    (∀ n between, i.reset = false → i.synth = .produce (n + 1) between →
      ∃ t, step s = exec .sample { s with
          timePort := i.time.getD s.timePort
          pending := Instant.ofCommand w :: Instant.ofSynth (.produce n (sampleNearer between)) :: rest } ∧
        step s = .next t ∧
        step t = exec (decodeCmd w) { t with
          pending := Instant.ofSynth (.produce n (sampleNearer between)) :: rest })

/-- What each other form of an instant presents (rules R48, R53, R158, R207, R231): RESET with or without a command, a
SAMPLE alone, a command alone, a PRODUCE with nothing between its samples, PRODUCE 0 with a command, and nothing. The
reading driven at the instant stands on the time port. What becomes of the events of a PRODUCE that a RESET drops, or
of a PRODUCE 0, is the model's (log entry 11), and so is the form of an instant and of the port (log entries 1, 12). -/
def Obligations.EachInstantPresentsItsOperation : Prop :=
  ∀ (s : State) (i : Instant) (rest : List Instant), s.pending = i :: rest →
    (i.reset = true →
      step s = exec .reset { s with
        timePort := i.time.getD s.timePort
        pending := i.synth.between.map Between.instant ++ rest }) ∧
    (i.reset = false → i.synth = .sample → i.control = none →
      step s = exec .sample { s with timePort := i.time.getD s.timePort, pending := rest }) ∧
    (∀ w, i.reset = false → i.synth = .idle → i.control = some w →
      step s = exec (decodeCmd w) { s with timePort := i.time.getD s.timePort, pending := rest }) ∧
    (∀ n, i.reset = false → i.synth = .produce n [] → i.control = none →
      step s = exec (.produce n) { s with timePort := i.time.getD s.timePort, pending := rest }) ∧
    (∀ between w, i.reset = false → i.synth = .produce 0 between → i.control = some w →
      step s = .next { s with
        timePort := i.time.getD s.timePort
        pending := Instant.ofCommand w :: between.map Between.instant ++ rest }) ∧
    (i.reset = false → i.synth = .idle → i.control = none →
      step s = .next { s with timePort := i.time.getD s.timePort, pending := rest })

/-- A command, and a new clock reading, may fall between any two samples of one PRODUCE (rules R38, R48, R158): with the
event `e` placed after `e.after` of the `n` samples, the steps are PRODUCE of those samples, the command, and, if nothing
else falls between, PRODUCE of the others. The samples after the event see its reading. How the events of a request are
written down is the model's (log entries 1, 11). -/
def Obligations.CommandFallsBetweenSamplesOfProduce : Prop :=
  ∀ (s : State) (i : Instant) (rest : List Instant) (n : Nat) (e : Between) (later : List Between) (w : CmdWord),
    s.pending = i :: rest → i.reset = false → i.control = none → i.synth = .produce n (e :: later) →
    e.after ≤ n → e.reset = false → e.control = some w →
    ∃ t u,
      exec (.produce e.after) { s with
        timePort := i.time.getD s.timePort
        pending := e.instant :: Instant.ofSynth (.produce (n - e.after) later) :: rest } = .next t ∧
      step s = .next t ∧
      exec (decodeCmd w) { t with
        timePort := e.time.getD t.timePort
        pending := Instant.ofSynth (.produce (n - e.after) later) :: rest } = .next u ∧
      step t = .next u ∧
      (later = [] → step u = exec (.produce (n - e.after)) { u with pending := rest })

/-- No step ends in a fault or a refusal: the synthesis side raises nothing (rule R204), a rejection only writes
`cmd_status` (rule R208). -/
def Obligations.EveryStepAnswersNext : Prop := ∀ s : State, ∃ t, step s = .next t

/-! ### Commands -/

/-- SET_PI (rule R101): its encoding, its effect, and `HistReq()`. -/
def Obligations.SetPiStoresCode : Prop :=
  (∀ (len : BitVec 7) (data : Vector Byte 64), decode (.control ⟨0x1, len, data⟩) = .ok (.setPi (data[1] ++ data[0]))) ∧
  ∀ (pi : BitVec 16) (s : State), exec (.setPi pi) s = .next { s with
    params := { s.params with pi := pi }
    cmdStatus := .ok
    histReqs := if s.suppressWrite then s.histReqs else s.histReqs + 1 }

/-- SET_PS (rule R102): its encoding; character `k` for `k < min(len, 8)`, a space (0x20) elsewhere. -/
def Obligations.SetPsStoresPaddedName : Prop :=
  (∀ (len : BitVec 7) (data : Vector Byte 64), ∃ c : Vector Byte 8, (∀ k : Fin 8, c.get k = data[k.val]) ∧
    decode (.control ⟨0x2, len, data⟩) = .ok (.setPs len c)) ∧
  ∀ (len : BitVec 7) (chars : Vector Byte 8) (s : State), ∃ ps : Vector Byte 8,
    (∀ k : Fin 8, ps.get k = if k.val < min len.toNat 8 then chars.get k else 0x20#8) ∧
    exec (.setPs len chars) s = .next { s with
      params := { s.params with ps := ps }
      cmdStatus := .ok
      histReqs := if s.suppressWrite then s.histReqs else s.histReqs + 1 }

/-- SET_RT (rule R103): its encoding; character `k` for `k < min(len, 64)`, a space elsewhere. -/
def Obligations.SetRtStoresPaddedText : Prop :=
  (∀ (len : BitVec 7) (data : Vector Byte 64), decode (.control ⟨0x3, len, data⟩) = .ok (.setRt len data)) ∧
  ∀ (len : BitVec 7) (chars : Vector Byte 64) (s : State), ∃ rt : Vector Byte 64,
    (∀ k : Fin 64, rt.get k = if k.val < min len.toNat 64 then chars.get k else 0x20#8) ∧
    exec (.setRt len chars) s = .next { s with
      params := { s.params with rt := rt }
      cmdStatus := .ok
      histReqs := if s.suppressWrite then s.histReqs else s.histReqs + 1 }

/-- SET_TA (rule R104): its encoding, its effect, and the text channel's `ON` and any other argument. The clause over
`channelCommand` rests on the model's form of a line, already parsed, with `ON` as two character codes (log entry
15). -/
def Obligations.SetTaStoresFlag : Prop :=
  (∀ (len : BitVec 7) (data : Vector Byte 64),
    decode (.control ⟨0x4, len, data⟩) = .ok (.setTa (data[0].getLsbD 0))) ∧
  (∀ (external : Bool) (arg : List Byte), ∃ ta : Bool, channelCommand external (.ta arg) = some (.setTa ta) ∧
    (ta = true ↔ arg = [0x4F#8, 0x4E#8])) ∧
  ∀ (ta : Bool) (s : State), exec (.setTa ta) s = .next { s with
    params := { s.params with ta := ta }
    cmdStatus := .ok
    histReqs := if s.suppressWrite then s.histReqs else s.histReqs + 1 }

/-- SET_PTY (rule R105): its encoding; `PTY <- min(pty, 31)`. -/
def Obligations.SetPtyClamps : Prop :=
  (∀ (len : BitVec 7) (data : Vector Byte 64), decode (.control ⟨0x5, len, data⟩) = .ok (.setPty data[0])) ∧
  ∀ (pty : BitVec 8) (s : State), ∃ p : BitVec 5, p.toNat = min pty.toNat 31 ∧
    exec (.setPty pty) s = .next { s with
      params := { s.params with pty := p }
      cmdStatus := .ok
      histReqs := if s.suppressWrite then s.histReqs else s.histReqs + 1 }

/-- ADD_AF_HZ (rule R107, with the codec of rule R106 written out): its encoding; an invalid frequency is AF_INVALID,
else a full pool is AF_FULL, else the code `(hz - 87 500 000) / 100 000` is appended. -/
def Obligations.AddAfHzValidatesAndAppends : Prop :=
  (∀ (len : BitVec 7) (data : Vector Byte 64),
    decode (.control ⟨0x6, len, data⟩) = .ok (.addAfHz (data[3] ++ data[2] ++ data[1] ++ data[0]))) ∧
  ∀ (hz : BitVec 32) (s : State), exec (.addAfHz hz) s = .next (
    if hz.toNat < 87600000 ∨ 107900000 < hz.toNat ∨ (hz.toNat - 87500000) % 100000 ≠ 0 then
      { s with cmdStatus := .afInvalid }
    else if s.params.afPool.length = 25 then { s with cmdStatus := .afFull }
    else { s with
      params := { s.params with
        afPool := s.params.afPool ++ [BitVec.ofNat 8 ((hz.toNat - 87500000) / 100000)] }
      cmdStatus := .ok
      histReqs := if s.suppressWrite then s.histReqs else s.histReqs + 1 })

/-- ADD_AF_CODE (rule R108): its encoding; a code outside 1..204 is AF_INVALID, else a full pool is AF_FULL, else it
is appended. -/
def Obligations.AddAfCodeValidatesAndAppends : Prop :=
  (∀ (len : BitVec 7) (data : Vector Byte 64), decode (.control ⟨0x7, len, data⟩) = .ok (.addAfCode data[0])) ∧
  ∀ (code : BitVec 8) (s : State), exec (.addAfCode code) s = .next (
    if code.toNat < 1 ∨ 204 < code.toNat then { s with cmdStatus := .afInvalid }
    else if s.params.afPool.length = 25 then { s with cmdStatus := .afFull }
    else { s with
      params := { s.params with afPool := s.params.afPool ++ [code] }
      cmdStatus := .ok
      histReqs := if s.suppressWrite then s.histReqs else s.histReqs + 1 })

/-- CLEAR_AF (rule R111): its encoding; the pool is empty; `af_state` is not written. -/
def Obligations.ClearAfEmptiesPool : Prop :=
  (∀ (len : BitVec 7) (data : Vector Byte 64), decode (.control ⟨0x8, len, data⟩) = .ok .clearAf) ∧
  ∀ s : State, exec .clearAf s = .next { s with
    params := { s.params with afPool := [] }
    cmdStatus := .ok
    histReqs := if s.suppressWrite then s.histReqs else s.histReqs + 1 }

/-- SET_SUPPRESS (rule R109): its encoding, its effect, no `hist_req`. -/
def Obligations.SetSuppressWritesFlag : Prop :=
  (∀ (len : BitVec 7) (data : Vector Byte 64),
    decode (.control ⟨0x9, len, data⟩) = .ok (.setSuppress (data[0].getLsbD 0))) ∧
  ∀ (on : Bool) (s : State), exec (.setSuppress on) s = .next { s with suppressWrite := on, cmdStatus := .ok }

/-- CMD_RESERVED (rule R203): the opcodes 0x0 and 0xA..0xF, whatever the operands; `cmd_status <- 3` and nothing else.
-/
def Obligations.ReservedCommandOnlySetsStatus : Prop :=
  (∀ (op : BitVec 4) (len : BitVec 7) (data : Vector Byte 64), op = 0 ∨ 10 ≤ op.toNat →
    decode (.control ⟨op, len, data⟩) = .ok (.cmdReserved op)) ∧
  ∀ (op : BitVec 4) (s : State), ∃ st : CmdStatus, st.code = 3 ∧ exec (.cmdReserved op) s = .next { s with cmdStatus := st }

/-- A rejected command writes `cmd_status` and nothing else (rule R208). -/
def Obligations.RejectionWritesStatusOnly : Prop :=
  ∀ (i : Instr) (s t : State), i.isCommand = true → exec i s = .next t → t.cmdStatus ≠ .ok →
    t = { s with cmdStatus := t.cmdStatus }

/-- `hist_req` is emitted by every accepted setter exactly when `suppress_write` is 0, by no rejected command, and not
by SET_SUPPRESS (rule R110). -/
def Obligations.HistReqExactlyOnAcceptedSetters : Prop :=
  ∀ (i : Instr) (s t : State), i.isCommand = true → exec i s = .next t →
    t.histReqs = s.histReqs +
      (if t.cmdStatus = .ok ∧ s.suppressWrite = false ∧ (∀ on, i ≠ .setSuppress on) then 1 else 0)

/-- No command touches GroupCursor, `SNAP`, `BITS` or SynthesisState (rules R100, R215). -/
def Obligations.CommandsLeaveSynthesisAlone : Prop :=
  ∀ (i : Instr) (s t : State), i.isCommand = true → exec i s = .next t → SameSynthesis s t ∧ SameInputs s t

/-- No operation of the synthesis side, and no micro-operation, writes StationParams, `suppress_write` or
`cmd_status`, or raises `hist_req` (rules R18, R54, R215). -/
def Obligations.SynthesisLeavesControlAlone : Prop :=
  ∀ (i : Instr) (s t : State), i = .sample ∨ (∃ n, i = .produce n) ∨ i.isMicro = true → exec i s = .next t →
    SameControl s t

/-- The AF pool's bound and code range are kept by every operation (rules R16, R17). For RESET the clause about
`SNAP`, which the spec leaves unspecified after reset, rests on the model's reset value of it (log entry 8); R16 and
R17 themselves speak of StationParams. -/
def Obligations.EveryOperationKeepsPoolBounds : Prop :=
  ∀ (i : Instr) (s t : State), s.params.Wf → s.snap.Wf → exec i s = .next t → t.params.Wf ∧ t.snap.Wf

/-! ### Codec and CRC -/

/-- MHZ_TO_CODE (rule R106): the code is returned, 0 for an invalid frequency, otherwise the code in 1..204 whose
frequency is `hz` (rule R72). The field it is returned in is the model's (log entry 13). -/
def Obligations.MhzToCodeInvertsFrequency : Prop :=
  ∀ (hz : BitVec 32) (s : State), ∃ code : Byte,
    exec (.mhzToCode hz) s = .next { s with result := .code code } ∧
    (hz.toNat < 87600000 ∨ 107900000 < hz.toNat ∨ (hz.toNat - 87500000) % 100000 ≠ 0 → code = 0) ∧
    (87600000 ≤ hz.toNat → hz.toNat ≤ 107900000 → (hz.toNat - 87500000) % 100000 = 0 →
      1 ≤ code.toNat ∧ code.toNat ≤ 204 ∧ hz.toNat = 87500000 + 100000 * code.toNat)

/-- CRC10 (rule R90): the remainder `(m(x) * x^10) mod g(x)` over GF(2) as a 10-bit word, the rule's corner cases, and
its `uop` index. The
operand beside the index is the model's arrangement (log entry 14). -/
def Obligations.Crc10IsPolynomialRemainder : Prop :=
  (∀ block : Block, polyOf (crc10 block) = (polyOf block * Polynomial.X ^ 10).modByMonic generator) ∧
  crc10 0x0000 = 0x000 ∧ crc10 0x0001 = 0x1B9 ∧ crc10 0x8000 = 0x077 ∧ crc10 0xFFFF = 0x0CD ∧ crc10 0x1234 = 0x096 ∧
  ∀ block : Block, decode (.uop ⟨0x0, .block block⟩) = .ok (.crc10 block)

/-- CRC10 run on its own (rules R90, R91): no state of the hardware changes, and the value returned is the bit-serial
division's. The field it is returned in is the model's (log entry 13). -/
def Obligations.Crc10ReturnsBitSerialRemainder : Prop :=
  ∀ (block : Block) (s : State), exec (.crc10 block) s = .next { s with
    result := .crc ((List.range 16).foldl (fun (reg : Check) j =>
      if (reg.getLsbD 9 ^^ block.getLsbD (15 - j)) then (reg <<< 1) ^^^ 0x1B9#10 else reg <<< 1) 0) }

/-- CRC10 is linear over GF(2) (rule R92a). -/
def Obligations.Crc10Linear : Prop := (∀ a b : Block, crc10 (a ^^^ b) = crc10 a ^^^ crc10 b) ∧ crc10 0 = 0

/-! ### Scheduler -/

/-- EMIT_FRAME (rules R40, R62, R135): each block's data bits, then its checkword `CRC10 xor OFFSET_WORD[i]`, most
significant first, blocks in order. -/
def Obligations.EmitFrameLaysOutBlocks : Prop :=
  ∀ (b : Blocks) (s : State), ∃ bits : BitVec 104,
    exec (.emitFrame b) s = .next { s with bits := bits } ∧
    ∀ (i : Fin 4) (data : Block) (check : Check),
      (data, check) = [(b.b0, crc10 b.b0 ^^^ 0x0FC#10), (b.b1, crc10 b.b1 ^^^ 0x198#10),
        (b.b2, crc10 b.b2 ^^^ 0x168#10), (b.b3, crc10 b.b3 ^^^ 0x1B4#10)].get i →
      (∀ j, j < 16 → bits.getMsbD (26 * i.val + j) = data.getLsbD (15 - j)) ∧
      (∀ j, j < 10 → bits.getMsbD (26 * i.val + 16 + j) = check.getLsbD (9 - j))

/-- NEXT_GROUP when the minute changed (rules R121, R122, R123, R125): the CT group of the snapshot, `latest_minute`
written, the cycle not advanced. -/
def Obligations.NextGroupEmitsClockTime : Prop :=
  ∀ s : State, s.timePort.valid = true → s.timePort.min.setWidth 7 ≠ s.cursor.latestMinute →
    exec .nextGroup s = .next { s with
      snap := s.params
      cursor := { s.cursor with latestMinute := s.timePort.min.setWidth 7 }
      bits := frameBits hw ⟨s.params.pi,
        0x4400#16 ||| ((mjd hw s.timePort) >>> 15).setWidth 16,
        ((mjd hw s.timePort).setWidth 16 <<< 1) ||| (s.timePort.hour >>> 4).setWidth 16,
        ((s.timePort.hour.setWidth 16 &&& 0xF#16) <<< 12) ||| (s.timePort.min.setWidth 16 <<< 6) |||
          ((BitVec.ofBool s.timePort.offNeg).setWidth 16 <<< 5) ||| s.timePort.offMag.setWidth 16⟩ }

/-- NEXT_GROUP in phases 0..3 with no CT (rules R68, R121, R126, R129, R130): the 0A group field by field. -/
def Obligations.NextGroupEmitsProgrammeService : Prop :=
  ∀ s : State, s.timePort.valid = false ∨ s.timePort.min.setWidth 7 = s.cursor.latestMinute → s.cursor.state.val < 4 →
    ∃ (b : Blocks) (af : Fin 13), exec .nextGroup s = .next { s with
      snap := s.params
      cursor := { s.cursor with state := s.cursor.state + 1, psState := s.cursor.psState + 1, afState := af }
      bits := frameBits hw b } ∧
    b.b0 = s.params.pi ∧
    b.b1 = (0b000001#6 ++ s.params.pty ++ BitVec.ofBool s.params.ta ++ 0b00#2 ++ BitVec.ofNat 2 s.cursor.psState.val) ∧
    b.b2 = afWord hw s.params.afPool s.cursor.afState ∧ af = afNext s.params.afPool.length s.cursor.afState ∧
    b.b3 = s.params.ps.get ⟨2 * s.cursor.psState.val, by omega⟩ ++ s.params.ps.get ⟨2 * s.cursor.psState.val + 1, by omega⟩

/-- NEXT_GROUP in phase 4 with no CT (rules R69, R121, R128, R129, R130): the 2A group field by field. -/
def Obligations.NextGroupEmitsRadioText : Prop :=
  ∀ s : State, s.timePort.valid = false ∨ s.timePort.min.setWidth 7 = s.cursor.latestMinute → s.cursor.state = 4 →
    ∃ b : Blocks, exec .nextGroup s = .next { s with
      snap := s.params
      cursor := { s.cursor with state := 0, rtState := s.cursor.rtState + 1 }
      bits := frameBits hw b } ∧
    b.b0 = s.params.pi ∧
    b.b1 = (0b001001#6 ++ s.params.pty ++ 0b0#1 ++ BitVec.ofNat 4 s.cursor.rtState.val) ∧
    b.b2 = s.params.rt.get ⟨4 * s.cursor.rtState.val, by omega⟩ ++ s.params.rt.get ⟨4 * s.cursor.rtState.val + 1, by omega⟩ ∧
    b.b3 = s.params.rt.get ⟨4 * s.cursor.rtState.val + 2, by omega⟩ ++
      s.params.rt.get ⟨4 * s.cursor.rtState.val + 3, by omega⟩

/-- GROUP_4A (rules R70, R123): blocks 1 to 3 field by field, `latest_minute` written, PTY and TA not applied. The
field the blocks are returned in is the model's (log entry 13). -/
def Obligations.Group4ALaysOutClockTime : Prop :=
  ∀ (t : TimeReading) (s : State), ∃ b1 b2 b3 : Block,
    exec (.group4A t) s = .next { s with
      cursor := { s.cursor with latestMinute := t.min.setWidth 7 }
      result := .blocks b1 b2 b3 } ∧
    b1 = 0b010001#6 ++ 0#8 ++ (mjd hw t).extractLsb' 15 2 ∧
    b2 = (mjd hw t).extractLsb' 0 15 ++ t.hour.extractLsb' 4 1 ∧
    b3 = t.hour.extractLsb' 0 4 ++ t.min ++ BitVec.ofBool t.offNeg ++ t.offMag

/-- GROUP_0A run on its own (rule R126): reads `SNAP`, advances `ps_state` modulo 4 and `af_state` by AF_BLOCK; PTY is
not yet applied. The field the result is returned in is the model's (log entry 13). -/
def Obligations.Group0AReadsSnapshot : Prop :=
  ∀ s : State, exec .group0A s = .next { s with
    cursor := { s.cursor with
      psState := s.cursor.psState + 1
      afState := afNext s.snap.afPool.length s.cursor.afState }
    result := .blocks (0x0400#16 ||| ((BitVec.ofBool s.snap.ta).setWidth 16 <<< 4) ||| BitVec.ofNat 16 s.cursor.psState.val)
      (afWord hw s.snap.afPool s.cursor.afState)
      (s.snap.ps.get ⟨2 * s.cursor.psState.val, by omega⟩ ++ s.snap.ps.get ⟨2 * s.cursor.psState.val + 1, by omega⟩) }

/-- GROUP_2A run on its own (rule R128): reads `SNAP`, advances `rt_state` modulo 16; PTY is not yet applied. The
field the result is returned in is the model's (log entry 13). -/
def Obligations.Group2AReadsSnapshot : Prop :=
  ∀ s : State, exec .group2A s = .next { s with
    cursor := { s.cursor with rtState := s.cursor.rtState + 1 }
    result := .blocks (0x2400#16 ||| BitVec.ofNat 16 s.cursor.rtState.val)
      (s.snap.rt.get ⟨4 * s.cursor.rtState.val, by omega⟩ ++ s.snap.rt.get ⟨4 * s.cursor.rtState.val + 1, by omega⟩)
      (s.snap.rt.get ⟨4 * s.cursor.rtState.val + 2, by omega⟩ ++ s.snap.rt.get ⟨4 * s.cursor.rtState.val + 3, by omega⟩) }

/-- AF_BLOCK (rules R73, R127): the four forms and the next `af_state`, for a pool within its bound. The field the
result is returned in is the model's (log entry 13). -/
def Obligations.AfBlockForms : Prop :=
  ∀ s : State, s.snap.afPool.length ≤ 25 →
    let af := s.snap.afPool
    let n := af.length
    let m := n / 2 + 1
    let e := if s.cursor.afState.val < m then s.cursor.afState.val else 0
    ∃ (r : Block) (next : Fin 13), exec .afBlock s = .next { s with
      cursor := { s.cursor with afState := next }
      result := .af r } ∧
    (n = 0 → r = 0xCDCD#16 ∧ next = 0) ∧
    (1 ≤ n → next.val = (e + 1) % m) ∧
    (1 ≤ n → e = 0 → r.toNat = (224 + n) * 256 + (af.getD 0 0).toNat) ∧
    (1 ≤ e → 2 * e < n → r = af.getD (2 * e - 1) 0 ++ af.getD (2 * e) 0) ∧
    (1 ≤ e → 2 * e = n → r = af.getD (2 * e - 1) 0 ++ 0xCD#8)

/-- One pass of AF emissions transmits the count code, then every code of the pool once and in order, then the filler
if one byte is left over (rule R127). -/
def Obligations.AfPassTransmitsWholePool : Prop :=
  ∀ pool : List Byte, 1 ≤ pool.length → pool.length ≤ 25 →
    afPass hw pool = BitVec.ofNat 8 (224 + pool.length) :: pool ++ (if pool.length % 2 = 0 then [0xCD#8] else [])

/-- The cycle (rule R132): with no CT group, from phase 0, call `n` emits a 0A group of the next PS segment when `n
mod 5` is 0..3 and a 2A group of RT segment `rt_state + n/5` when it is 4; four PS groups bring `ps_state` back,
sixteen RT groups `rt_state`, and the pattern repeats every 80 groups. A CT group is inserted without changing the
cycle. -/
def Obligations.CycleIsFourNamesThenText : Prop :=
  (∀ (s : State) (n : Nat), s.timePort.valid = false → s.cursor.state = 0 →
    ∃ t, execAll (List.replicate (n + 1) .nextGroup) s = .next t ∧
      t.cursor.state.val = (n + 1) % 5 ∧
      (n % 5 < 4 → groupType t.bits = 0x0 ∧
        (frameBlock1 t.bits).extractLsb' 0 2 = BitVec.ofNat 2 (s.cursor.psState.val + n % 5)) ∧
      (n % 5 = 4 → groupType t.bits = 0x2 ∧
        (frameBlock1 t.bits).extractLsb' 0 4 = BitVec.ofNat 4 (s.cursor.rtState.val + n / 5)) ∧
      ((n + 1) % 5 = 0 → t.cursor.psState = s.cursor.psState) ∧
      ((n + 1) % 80 = 0 → t.cursor.rtState = s.cursor.rtState)) ∧
  (∀ s : State, s.timePort.valid = true → s.timePort.min.setWidth 7 ≠ s.cursor.latestMinute →
    ∃ t, exec .nextGroup s = .next t ∧ groupType t.bits = 0x4 ∧
      t.cursor = { s.cursor with latestMinute := t.cursor.latestMinute })

/-- NEXT_GROUP is its micro-operations on one snapshot (rules R121, R129, R130): GROUP_4A, GROUP_0A or GROUP_2A, then
PTY and the phase for a non-CT group, then EMIT_FRAME. The blocks pass through the model's field `result` (log entry
13). -/
def Obligations.NextGroupComposesMicroOperations : Prop :=
  ∀ s : State,
    let ct := s.timePort.valid = true ∧ s.timePort.min.setWidth 7 ≠ s.cursor.latestMinute
    ∃ (g t : State) (b1 b2 b3 : Block),
      exec (if ct then .group4A s.timePort else if s.cursor.state.val < 4 then .group0A else .group2A)
        { s with snap := s.params } = .next g ∧
      g.result = .blocks b1 b2 b3 ∧
      exec (.emitFrame ⟨s.params.pi, if ct then b1 else b1 ||| (s.params.pty.setWidth 16 <<< 5), b2, b3⟩)
        { g with cursor := { g.cursor with state := if ct then g.cursor.state else g.cursor.state + 1 } } = .next t ∧
      exec .nextGroup s = .next { t with result := s.result }

/-- MJD counts days (rule R124): 15079 on 1900-03-01, 88127 on 2100-02-28, and one more each day between. -/
def Obligations.MjdCountsDays : Prop :=
  ∀ t u : TimeReading, validDate t.year.toNat t.month.toNat t.day.toNat →
    dateKey 1900 3 1 ≤ dateKey t.year.toNat t.month.toNat t.day.toNat →
    dateKey t.year.toNat t.month.toNat t.day.toNat < dateKey 2100 2 28 →
    (u.year.toNat, u.month.toNat, u.day.toNat) = nextDay t.year.toNat t.month.toNat t.day.toNat →
    (mjd hw u).toNat = (mjd hw t).toNat + 1 ∧
    (t.year = 1900 → t.month = 3 → t.day = 1 → mjd hw t = 15079) ∧
    (u.year = 2100 → u.month = 2 → u.day = 28 → mjd hw u = 88127)

/-! ### Synthesizer -/

/-- SAMPLE within a bit (rules R150, R154, R155): the slot at `out_idx` is read, zeroed and multiplied by the carrier;
the counters advance. A slot outside the ring, which no run reaches, reads as zero (log entry 17). -/
def Obligations.SampleWithinBit : Prop :=
  ∀ s : State, s.synth.sampleCount.val < 192 →
    exec .sample s = .next { s with
      synth := { s.synth with
        ring := s.synth.ring.set s.synth.outIdx hw.zero
        outIdx := (s.synth.outIdx + 1) % hw.ringSize
        phase := s.synth.phase + 1
        sampleCount := s.synth.sampleCount + 1 }
      samplesOut := s.samplesOut ++ [carrier hw s.synth.phase (s.synth.ring.getD s.synth.outIdx hw.zero)] }

/-- SAMPLE at a bit boundary (rules R150, R151): it is NEXT_BIT, then the rest of SAMPLE on the state NEXT_BIT leaves.
-/
def Obligations.SampleAtBitBoundaryLoadsBit : Prop :=
  ∀ s : State, s.synth.sampleCount.val = 192 →
    ∃ u t, exec .nextBit s = .next u ∧ exec .sample u = .next t ∧ exec .sample s = .next t

/-- PRODUCE (rule R158): `count` SAMPLEs in order, one sample each; two calls equal one of the sum; 0 changes nothing.
PRODUCE here is the loop with nothing between its samples, so its groups see one held clock reading (log entry 11). -/
def Obligations.ProduceIsRepeatedSample : Prop :=
  ∀ (a b : Nat) (s : State),
    exec (.produce 0) s = .next s ∧
    (∃ t, exec (.produce a) s = .next t ∧ exec (.produce b) t = exec (.produce (a + b)) s ∧
      t.samplesOut.length = s.samplesOut.length + a ∧ execAll (List.replicate a .sample) s = .next t)

/-- NEXT_BIT with a bit left in the frame (rules R151, R152, R153): the bit is differentially encoded, its pulse
overlap-added by OLA_ADD, the cursors advance. -/
def Obligations.NextBitEncodesAndAddsPulse : Prop :=
  ∀ s : State, s.synth.bitPos.val < 104 → ∃ (d : Bool) (u : State),
    d = (s.synth.curOutput ^^ s.bits.getMsbD s.synth.bitPos.val) ∧
    exec (.olaAdd d) s = .next u ∧
    exec .nextBit s = .next { s with
      synth := { s.synth with
        bitPos := s.synth.bitPos + 1
        ring := u.synth.ring
        inIdx := u.synth.inIdx
        curOutput := d
        sampleCount := 0 } }

/-- NEXT_BIT on an exhausted frame (rules R120, R151): NEXT_GROUP first, then the first bit of the new frame. -/
def Obligations.NextBitRequestsNewFrame : Prop :=
  ∀ s : State, s.synth.bitPos = 104 → ∃ g t,
    exec .nextGroup s = .next g ∧
    exec .nextBit { g with synth := { g.synth with bitPos := 0 } } = .next t ∧
    exec .nextBit s = .next t ∧ t.synth.bitPos = 1

/-- OLA_ADD (rule R153): tap `j` is added, inverted if `d` is 1, to slot `(in_idx + j) mod B`; every other slot is
unchanged; `in_idx` advances by `S` modulo `B`. -/
def Obligations.OlaAddAddsSignedPulse : Prop :=
  ∀ (d : Bool) (s : State), s.synth.Shape hw → ∃ ring : List Sample,
    exec (.olaAdd d) s = .next { s with
      synth := { s.synth with ring := ring, inIdx := (s.synth.inIdx + 192) % hw.ringSize } } ∧
    ring.length = hw.ringSize ∧
    (∀ j, j < hw.filterSize →
      ring.getD ((s.synth.inIdx + j) % hw.ringSize) hw.zero =
        hw.add (s.synth.ring.getD ((s.synth.inIdx + j) % hw.ringSize) hw.zero)
          (if d then hw.neg (hw.waveform j) else hw.waveform j)) ∧
    (∀ k, k < hw.ringSize → (∀ j, j < hw.filterSize → (s.synth.inIdx + j) % hw.ringSize ≠ k) →
      ring.getD k hw.zero = s.synth.ring.getD k hw.zero)

/-- OLA_ADD completes in every state, and writes `in_idx` and the slots `(in_idx + j) mod B`, `j < F`, of RING alone
(rules R44, R153): the new ring is the meaning's own overlap-add, it has as many slots as the old one, and every slot
no tap falls on holds what it held. A position outside the ring, which no run reaches, reads as zero and is not written
(log entry 17). -/
def Obligations.OlaAddFrame : Prop :=
  ∀ (d : Bool) (s : State),
    exec (.olaAdd d) s = .next { s with
      synth := { s.synth with
        ring := overlapAdd hw d s.synth.inIdx hw.filterSize 0 s.synth.ring
        inIdx := (s.synth.inIdx + 192) % hw.ringSize } } ∧
    (overlapAdd hw d s.synth.inIdx hw.filterSize 0 s.synth.ring).length = s.synth.ring.length ∧
    ∀ k, (∀ j, j < hw.filterSize → (s.synth.inIdx + j) % hw.ringSize ≠ k) →
      (overlapAdd hw d s.synth.inIdx hw.filterSize 0 s.synth.ring).getD k hw.zero = s.synth.ring.getD k hw.zero

/-- READ_OUT (rule R154): `RING[out_idx]` is returned and that slot zeroed; `out_idx` advances by 1 modulo `B`. The
field it is returned in is the model's (log entry 13), and so is what an `out_idx` outside the ring, which no run
reaches, does: it reads as zero and writes nothing (log entry 17). -/
def Obligations.ReadOutTakesAndZeroesSlot : Prop :=
  ∀ s : State, exec .readOut s = .next { s with
    synth := { s.synth with
      ring := s.synth.ring.set s.synth.outIdx hw.zero
      outIdx := (s.synth.outIdx + 1) % hw.ringSize }
    result := .sample (s.synth.ring.getD s.synth.outIdx hw.zero) }

/-- MODULATE (rule R155): zero, pass-through, zero, negate by phase; `phase` advances modulo 4. The field it is
returned in is the model's (log entry 13). -/
def Obligations.ModulateByFourPhaseCarrier : Prop :=
  ∀ (e : Sample) (s : State), ∃ y : Sample,
    exec (.modulate e) s = .next { s with synth := { s.synth with phase := s.synth.phase + 1 }, result := .sample y } ∧
    (s.synth.phase = 0 → y = hw.zero) ∧ (s.synth.phase = 1 → y = e) ∧ (s.synth.phase = 2 → y = hw.zero) ∧
    (s.synth.phase = 3 → y = hw.neg e)

/-- The differential encoder (rule R152): each bit taken is xor-ed onto the cell, across group boundaries too; the
cell is 0 after reset; decoding recovers the bits from every cell value, and the complement of the encoded stream
decodes to the same bits apart from the first. -/
def Obligations.DifferentialEncodingRoundTrip : Prop :=
  (∀ s : State, ∃ t, exec .nextBit s = .next t ∧ 1 ≤ t.synth.bitPos.val ∧
    t.synth.curOutput = (s.synth.curOutput ^^ t.bits.getMsbD (t.synth.bitPos.val - 1))) ∧
  (∀ s : State, ∃ t, exec .reset s = .next t ∧ t.synth.curOutput = false) ∧
  (∀ (cell : Bool) (bits : List Bool), decodeBits cell (encodeBits cell bits) = bits) ∧
  (∀ (cell b : Bool) (bits : List Bool),
    decodeBits cell ((encodeBits cell (b :: bits)).map (!·)) = (!b) :: bits)

/-- SAMPLE within a bit is READ_OUT, then MODULATE of what it read, then the count (rule R150).
The values pass through the model's field `result` (log entry 13). -/
def Obligations.SampleComposesReadOutAndModulate : Prop :=
  ∀ s : State, s.synth.sampleCount.val < 192 → ∃ (u v : State) (e y : Sample),
    exec .readOut s = .next u ∧ u.result = .sample e ∧ exec (.modulate e) u = .next v ∧ v.result = .sample y ∧
    exec .sample s = .next { v with
      synth := { v.synth with sampleCount := v.synth.sampleCount + 1 }
      samplesOut := v.samplesOut ++ [y]
      result := s.result }

/-- A group is rendered by a SAMPLE exactly when a bit is needed and the frame is exhausted (rules R52, R120):
otherwise `SNAP`, GroupCursor and `BITS` keep their values; then they are what NEXT_GROUP gives. -/
def Obligations.GroupRenderedOnlyWhenFrameExhausted : Prop :=
  ∀ s : State, ∃ t, exec .sample s = .next t ∧
    (s.midGroup → t.snap = s.snap ∧ t.cursor = s.cursor ∧ t.bits = s.bits) ∧
    (¬ s.midGroup → ∃ g, exec .nextGroup s = .next g ∧ t.snap = g.snap ∧ t.cursor = g.cursor ∧ t.bits = g.bits)

/-- The ring computes the polyphase closed form (rules R159, R163), as a law of one SAMPLE from every state whose ring
holds what the encoded bits `ds` owe: the sample returned is the carrier times the envelope owed at that time, and the
ring again holds what is owed, one bit more when a bit was loaded. -/
def Obligations.SampleRealisesClosedForm : Prop :=
  ∀ (ds : List Bool) (s : State), RingHolds hw ds s → ∃ t, exec .sample s = .next t ∧
    (s.synth.sampleCount.val < 192 →
      t.samplesOut = s.samplesOut ++ [carrier hw s.synth.phase (envelope hw ds s.synth.sampleCount.val)] ∧
      RingHolds hw ds t) ∧
    (s.synth.sampleCount.val = 192 →
      t.samplesOut = s.samplesOut ++ [carrier hw s.synth.phase (envelope hw (t.synth.curOutput :: ds) 0)] ∧
      RingHolds hw (t.synth.curOutput :: ds) t)

/-- Visibility (rule R49): between two NEXT_GROUPs a command and a SAMPLE commute, so no sample of a group depends on
a command ordered after the group's NEXT_GROUP. -/
def Obligations.CommandInvisibleWithinGroup : Prop :=
  ∀ (i : Instr) (s : State), i.isCommand = true → s.midGroup → ∃ u v t,
    exec i s = .next u ∧ exec .sample u = .next t ∧ exec .sample s = .next v ∧ exec i v = .next t

/-! ### Reset and invariants -/

/-- RESET (rules R39, R230): every register takes its reset value; no `hist_req` is emitted. `SNAP` and `BITS`, which
the rule leaves unspecified, are not stated. -/
def Obligations.ResetValues : Prop :=
  ∀ s : State, ∃ t, exec .reset s = .next t ∧
    t.params.pi = 0x0000 ∧ (∀ k, t.params.ps.get k = 0x20) ∧ (∀ k, t.params.rt.get k = 0x20) ∧
    t.params.ta = false ∧ t.params.pty = 0 ∧ t.params.afPool = [] ∧
    t.cursor.state = 0 ∧ t.cursor.psState = 0 ∧ t.cursor.rtState = 0 ∧ t.cursor.afState = 0 ∧
    t.cursor.latestMinute.toInt = -1 ∧
    t.synth.bitPos = 104 ∧ t.synth.sampleCount = 192 ∧ t.synth.curOutput = false ∧ t.synth.phase = 0 ∧
    t.synth.inIdx = 0 ∧ t.synth.outIdx = hw.ringSize - 1 ∧
    t.synth.ring.length = hw.ringSize ∧ (∀ x ∈ t.synth.ring, x = hw.zero) ∧
    t.suppressWrite = false ∧ t.cmdStatus.code = 0 ∧ t.histReqs = s.histReqs

/-- The first SAMPLE after RESET (rules R160, R232): it returns `zero`, takes the first bit of a new group, and that
group is a CT group exactly when the clock is valid. The parameters are those in force at that SAMPLE. -/
def Obligations.FirstSampleAfterReset : Prop :=
  ∀ (s : State) (p : StationParams), ∃ r t,
    exec .reset s = .next r ∧ exec .sample { r with params := p } = .next t ∧
    t.samplesOut = s.samplesOut ++ [hw.zero] ∧ t.synth.bitPos = 1 ∧ t.synth.sampleCount = 1 ∧ t.snap = p ∧
    groupType t.bits = (if s.timePort.valid then 0x4 else 0x0) ∧
    t.cursor.state = (if s.timePort.valid then 0 else 1)

/-- The invariant holds after reset. It includes the model's own reset values of `SNAP` and `BITS` (log entries 8, 9).
-/
def Obligations.ResetMeetsInvariant : Prop := State.reset.Inv

/-- Every step keeps the invariant: pool bounds (R16, R17), a legal minute (R25), `ps_state` aligned with `state`
(R126), a whole frame while bits of it remain (R49), the carrier phase in step with the bit (R156), and the ring
exactly what the loaded bits owe (R163). On a step that runs RESET the clause about `SNAP`, which the spec leaves
unspecified after reset, rests on the model's reset value of it (log entry 8). -/
def Obligations.StepKeepsInvariant : Prop := ∀ s t : State, s.Inv → step s = .next t → t.Inv

/-! ### The host's reload -/

/-- History round trip (rules R184, R187): reloading what was written reproduces StationParams, with no `hist_req`.
Lines are taken already parsed (log entry 15). -/
def Obligations.HistoryRoundTrip : Prop :=
  ∀ (p : StationParams) (varying : Bool) (s : State), p.Wf → s.params.afPool = [] → s.params.ta = false →
    execAll (reloadHistory false (some (writeHistory varying p))).2 s = .next { s with
      params := p
      suppressWrite := false
      cmdStatus := .ok }
end

