-- ==== Sys2Proof/Laws/State.lean ====
section
/-! SUPPORT. One lemma per field per update of the state, true by rfl, so that no proof unfolds a record update. -/
namespace Sys2Proof.Machine

/-! ### State.reject -/

@[simp] theorem State.reject_params (s : State) (why : CmdStatus) : (s.reject why).params = s.params := rfl
@[simp] theorem State.reject_snap (s : State) (why : CmdStatus) : (s.reject why).snap = s.snap := rfl
@[simp] theorem State.reject_cursor (s : State) (why : CmdStatus) : (s.reject why).cursor = s.cursor := rfl
@[simp] theorem State.reject_bits (s : State) (why : CmdStatus) : (s.reject why).bits = s.bits := rfl
@[simp] theorem State.reject_synth (s : State) (why : CmdStatus) : (s.reject why).synth = s.synth := rfl
@[simp] theorem State.reject_suppressWrite (s : State) (why : CmdStatus) : (s.reject why).suppressWrite = s.suppressWrite := rfl
@[simp] theorem State.reject_cmdStatus (s : State) (why : CmdStatus) : (s.reject why).cmdStatus = why := rfl
@[simp] theorem State.reject_pending (s : State) (why : CmdStatus) : (s.reject why).pending = s.pending := rfl
@[simp] theorem State.reject_timePort (s : State) (why : CmdStatus) : (s.reject why).timePort = s.timePort := rfl
@[simp] theorem State.reject_samplesOut (s : State) (why : CmdStatus) : (s.reject why).samplesOut = s.samplesOut := rfl
@[simp] theorem State.reject_histReqs (s : State) (why : CmdStatus) : (s.reject why).histReqs = s.histReqs := rfl
@[simp] theorem State.reject_result (s : State) (why : CmdStatus) : (s.reject why).result = s.result := rfl

/-! ### State.histReq -/

@[simp] theorem State.histReq_params (s : State) : (s.histReq).params = s.params := rfl
@[simp] theorem State.histReq_snap (s : State) : (s.histReq).snap = s.snap := rfl
@[simp] theorem State.histReq_cursor (s : State) : (s.histReq).cursor = s.cursor := rfl
@[simp] theorem State.histReq_bits (s : State) : (s.histReq).bits = s.bits := rfl
@[simp] theorem State.histReq_synth (s : State) : (s.histReq).synth = s.synth := rfl
@[simp] theorem State.histReq_suppressWrite (s : State) : (s.histReq).suppressWrite = s.suppressWrite := rfl
@[simp] theorem State.histReq_cmdStatus (s : State) : (s.histReq).cmdStatus = s.cmdStatus := rfl
@[simp] theorem State.histReq_pending (s : State) : (s.histReq).pending = s.pending := rfl
@[simp] theorem State.histReq_timePort (s : State) : (s.histReq).timePort = s.timePort := rfl
@[simp] theorem State.histReq_samplesOut (s : State) : (s.histReq).samplesOut = s.samplesOut := rfl
@[simp] theorem State.histReq_histReqs (s : State) :
    (s.histReq).histReqs = if s.suppressWrite then s.histReqs else s.histReqs + 1 := rfl
@[simp] theorem State.histReq_result (s : State) : (s.histReq).result = s.result := rfl

/-! ### State.accept -/

@[simp] theorem State.accept_params (s : State) (p : StationParams) : (s.accept p).params = p := rfl
@[simp] theorem State.accept_snap (s : State) (p : StationParams) : (s.accept p).snap = s.snap := rfl
@[simp] theorem State.accept_cursor (s : State) (p : StationParams) : (s.accept p).cursor = s.cursor := rfl
@[simp] theorem State.accept_bits (s : State) (p : StationParams) : (s.accept p).bits = s.bits := rfl
@[simp] theorem State.accept_synth (s : State) (p : StationParams) : (s.accept p).synth = s.synth := rfl
@[simp] theorem State.accept_suppressWrite (s : State) (p : StationParams) : (s.accept p).suppressWrite = s.suppressWrite := rfl
@[simp] theorem State.accept_cmdStatus (s : State) (p : StationParams) : (s.accept p).cmdStatus = .ok := rfl
@[simp] theorem State.accept_pending (s : State) (p : StationParams) : (s.accept p).pending = s.pending := rfl
@[simp] theorem State.accept_timePort (s : State) (p : StationParams) : (s.accept p).timePort = s.timePort := rfl
@[simp] theorem State.accept_samplesOut (s : State) (p : StationParams) : (s.accept p).samplesOut = s.samplesOut := rfl
@[simp] theorem State.accept_histReqs (s : State) (p : StationParams) :
    (s.accept p).histReqs = if s.suppressWrite then s.histReqs else s.histReqs + 1 := rfl
@[simp] theorem State.accept_result (s : State) (p : StationParams) : (s.accept p).result = s.result := rfl

/-! ### State.returned -/

@[simp] theorem State.returned_params (s : State) (r : UopResult) : (s.returned r).params = s.params := rfl
@[simp] theorem State.returned_snap (s : State) (r : UopResult) : (s.returned r).snap = s.snap := rfl
@[simp] theorem State.returned_cursor (s : State) (r : UopResult) : (s.returned r).cursor = s.cursor := rfl
@[simp] theorem State.returned_bits (s : State) (r : UopResult) : (s.returned r).bits = s.bits := rfl
@[simp] theorem State.returned_synth (s : State) (r : UopResult) : (s.returned r).synth = s.synth := rfl
@[simp] theorem State.returned_suppressWrite (s : State) (r : UopResult) : (s.returned r).suppressWrite = s.suppressWrite := rfl
@[simp] theorem State.returned_cmdStatus (s : State) (r : UopResult) : (s.returned r).cmdStatus = s.cmdStatus := rfl
@[simp] theorem State.returned_pending (s : State) (r : UopResult) : (s.returned r).pending = s.pending := rfl
@[simp] theorem State.returned_timePort (s : State) (r : UopResult) : (s.returned r).timePort = s.timePort := rfl
@[simp] theorem State.returned_samplesOut (s : State) (r : UopResult) : (s.returned r).samplesOut = s.samplesOut := rfl
@[simp] theorem State.returned_histReqs (s : State) (r : UopResult) : (s.returned r).histReqs = s.histReqs := rfl
@[simp] theorem State.returned_result (s : State) (r : UopResult) : (s.returned r).result = r := rfl

/-! ### State.emitFrame -/

@[simp] theorem State.emitFrame_params (c : Cfg) (b : Blocks) (s : State) : (s.emitFrame c b).params = s.params := rfl
@[simp] theorem State.emitFrame_snap (c : Cfg) (b : Blocks) (s : State) : (s.emitFrame c b).snap = s.snap := rfl
@[simp] theorem State.emitFrame_cursor (c : Cfg) (b : Blocks) (s : State) : (s.emitFrame c b).cursor = s.cursor := rfl
@[simp] theorem State.emitFrame_bits (c : Cfg) (b : Blocks) (s : State) :
    (s.emitFrame c b).bits = frameBits c b := rfl
@[simp] theorem State.emitFrame_synth (c : Cfg) (b : Blocks) (s : State) : (s.emitFrame c b).synth = s.synth := rfl
@[simp] theorem State.emitFrame_suppressWrite (c : Cfg) (b : Blocks) (s : State) :
    (s.emitFrame c b).suppressWrite = s.suppressWrite := rfl
@[simp] theorem State.emitFrame_cmdStatus (c : Cfg) (b : Blocks) (s : State) :
    (s.emitFrame c b).cmdStatus = s.cmdStatus := rfl
@[simp] theorem State.emitFrame_pending (c : Cfg) (b : Blocks) (s : State) : (s.emitFrame c b).pending = s.pending := rfl
@[simp] theorem State.emitFrame_timePort (c : Cfg) (b : Blocks) (s : State) :
    (s.emitFrame c b).timePort = s.timePort := rfl
@[simp] theorem State.emitFrame_samplesOut (c : Cfg) (b : Blocks) (s : State) :
    (s.emitFrame c b).samplesOut = s.samplesOut := rfl
@[simp] theorem State.emitFrame_histReqs (c : Cfg) (b : Blocks) (s : State) :
    (s.emitFrame c b).histReqs = s.histReqs := rfl
@[simp] theorem State.emitFrame_result (c : Cfg) (b : Blocks) (s : State) : (s.emitFrame c b).result = s.result := rfl

/-! ### State.nextGroup -/

@[simp] theorem State.nextGroup_params (c : Cfg) (s : State) : (s.nextGroup c).params = s.params := rfl
@[simp] theorem State.nextGroup_snap (c : Cfg) (s : State) : (s.nextGroup c).snap = s.params := rfl
@[simp] theorem State.nextGroup_cursor (c : Cfg) (s : State) :
    (s.nextGroup c).cursor = groupCursorNext s.params s.cursor s.timePort := rfl
@[simp] theorem State.nextGroup_bits (c : Cfg) (s : State) :
    (s.nextGroup c).bits = frameBits c (groupBlocks c s.params s.cursor s.timePort) := rfl
@[simp] theorem State.nextGroup_synth (c : Cfg) (s : State) : (s.nextGroup c).synth = s.synth := rfl
@[simp] theorem State.nextGroup_suppressWrite (c : Cfg) (s : State) : (s.nextGroup c).suppressWrite = s.suppressWrite := rfl
@[simp] theorem State.nextGroup_cmdStatus (c : Cfg) (s : State) : (s.nextGroup c).cmdStatus = s.cmdStatus := rfl
@[simp] theorem State.nextGroup_pending (c : Cfg) (s : State) : (s.nextGroup c).pending = s.pending := rfl
@[simp] theorem State.nextGroup_timePort (c : Cfg) (s : State) : (s.nextGroup c).timePort = s.timePort := rfl
@[simp] theorem State.nextGroup_samplesOut (c : Cfg) (s : State) : (s.nextGroup c).samplesOut = s.samplesOut := rfl
@[simp] theorem State.nextGroup_histReqs (c : Cfg) (s : State) : (s.nextGroup c).histReqs = s.histReqs := rfl
@[simp] theorem State.nextGroup_result (c : Cfg) (s : State) : (s.nextGroup c).result = s.result := rfl

/-! ### State.olaAdd -/

@[simp] theorem State.olaAdd_params (c : Cfg) (d : Bool) (s : State) : (s.olaAdd c d).params = s.params := rfl
@[simp] theorem State.olaAdd_snap (c : Cfg) (d : Bool) (s : State) : (s.olaAdd c d).snap = s.snap := rfl
@[simp] theorem State.olaAdd_cursor (c : Cfg) (d : Bool) (s : State) : (s.olaAdd c d).cursor = s.cursor := rfl
@[simp] theorem State.olaAdd_bits (c : Cfg) (d : Bool) (s : State) : (s.olaAdd c d).bits = s.bits := rfl
@[simp] theorem State.olaAdd_synth (c : Cfg) (d : Bool) (s : State) :
    (s.olaAdd c d).synth = { s.synth with
      ring := overlapAdd c d s.synth.inIdx c.filterSize 0 s.synth.ring
      inIdx := (s.synth.inIdx + c.samplesPerBit) % c.ringSize } := rfl
@[simp] theorem State.olaAdd_suppressWrite (c : Cfg) (d : Bool) (s : State) :
    (s.olaAdd c d).suppressWrite = s.suppressWrite := rfl
@[simp] theorem State.olaAdd_cmdStatus (c : Cfg) (d : Bool) (s : State) : (s.olaAdd c d).cmdStatus = s.cmdStatus := rfl
@[simp] theorem State.olaAdd_pending (c : Cfg) (d : Bool) (s : State) : (s.olaAdd c d).pending = s.pending := rfl
@[simp] theorem State.olaAdd_timePort (c : Cfg) (d : Bool) (s : State) : (s.olaAdd c d).timePort = s.timePort := rfl
@[simp] theorem State.olaAdd_samplesOut (c : Cfg) (d : Bool) (s : State) : (s.olaAdd c d).samplesOut = s.samplesOut := rfl
@[simp] theorem State.olaAdd_histReqs (c : Cfg) (d : Bool) (s : State) : (s.olaAdd c d).histReqs = s.histReqs := rfl
@[simp] theorem State.olaAdd_result (c : Cfg) (d : Bool) (s : State) : (s.olaAdd c d).result = s.result := rfl

/-! ### State.readOut -/

@[simp] theorem State.readOut_params (c : Cfg) (s : State) : (s.readOut c).params = s.params := rfl
@[simp] theorem State.readOut_snap (c : Cfg) (s : State) : (s.readOut c).snap = s.snap := rfl
@[simp] theorem State.readOut_cursor (c : Cfg) (s : State) : (s.readOut c).cursor = s.cursor := rfl
@[simp] theorem State.readOut_bits (c : Cfg) (s : State) : (s.readOut c).bits = s.bits := rfl
@[simp] theorem State.readOut_synth (c : Cfg) (s : State) :
    (s.readOut c).synth = { s.synth with
      ring := ringClear c s.synth.ring s.synth.outIdx
      outIdx := (s.synth.outIdx + 1) % c.ringSize } := rfl
@[simp] theorem State.readOut_suppressWrite (c : Cfg) (s : State) : (s.readOut c).suppressWrite = s.suppressWrite := rfl
@[simp] theorem State.readOut_cmdStatus (c : Cfg) (s : State) : (s.readOut c).cmdStatus = s.cmdStatus := rfl
@[simp] theorem State.readOut_pending (c : Cfg) (s : State) : (s.readOut c).pending = s.pending := rfl
@[simp] theorem State.readOut_timePort (c : Cfg) (s : State) : (s.readOut c).timePort = s.timePort := rfl
@[simp] theorem State.readOut_samplesOut (c : Cfg) (s : State) : (s.readOut c).samplesOut = s.samplesOut := rfl
@[simp] theorem State.readOut_histReqs (c : Cfg) (s : State) : (s.readOut c).histReqs = s.histReqs := rfl
@[simp] theorem State.readOut_result (c : Cfg) (s : State) : (s.readOut c).result = s.result := rfl

/-! ### State.advancePhase -/

@[simp] theorem State.advancePhase_params (s : State) : (s.advancePhase).params = s.params := rfl
@[simp] theorem State.advancePhase_snap (s : State) : (s.advancePhase).snap = s.snap := rfl
@[simp] theorem State.advancePhase_cursor (s : State) : (s.advancePhase).cursor = s.cursor := rfl
@[simp] theorem State.advancePhase_bits (s : State) : (s.advancePhase).bits = s.bits := rfl
@[simp] theorem State.advancePhase_synth (s : State) :
    (s.advancePhase).synth = { s.synth with phase := s.synth.phase + 1 } := rfl
@[simp] theorem State.advancePhase_suppressWrite (s : State) : (s.advancePhase).suppressWrite = s.suppressWrite := rfl
@[simp] theorem State.advancePhase_cmdStatus (s : State) : (s.advancePhase).cmdStatus = s.cmdStatus := rfl
@[simp] theorem State.advancePhase_pending (s : State) : (s.advancePhase).pending = s.pending := rfl
@[simp] theorem State.advancePhase_timePort (s : State) : (s.advancePhase).timePort = s.timePort := rfl
@[simp] theorem State.advancePhase_samplesOut (s : State) : (s.advancePhase).samplesOut = s.samplesOut := rfl
@[simp] theorem State.advancePhase_histReqs (s : State) : (s.advancePhase).histReqs = s.histReqs := rfl
@[simp] theorem State.advancePhase_result (s : State) : (s.advancePhase).result = s.result := rfl

/-! ### State.deliver -/

@[simp] theorem State.deliver_params (s : State) (y : Sample) : (s.deliver y).params = s.params := rfl
@[simp] theorem State.deliver_snap (s : State) (y : Sample) : (s.deliver y).snap = s.snap := rfl
@[simp] theorem State.deliver_cursor (s : State) (y : Sample) : (s.deliver y).cursor = s.cursor := rfl
@[simp] theorem State.deliver_bits (s : State) (y : Sample) : (s.deliver y).bits = s.bits := rfl
@[simp] theorem State.deliver_synth (s : State) (y : Sample) :
    (s.deliver y).synth = { s.synth with sampleCount := s.synth.sampleCount + 1 } := rfl
@[simp] theorem State.deliver_suppressWrite (s : State) (y : Sample) : (s.deliver y).suppressWrite = s.suppressWrite := rfl
@[simp] theorem State.deliver_cmdStatus (s : State) (y : Sample) : (s.deliver y).cmdStatus = s.cmdStatus := rfl
@[simp] theorem State.deliver_pending (s : State) (y : Sample) : (s.deliver y).pending = s.pending := rfl
@[simp] theorem State.deliver_timePort (s : State) (y : Sample) : (s.deliver y).timePort = s.timePort := rfl
@[simp] theorem State.deliver_samplesOut (s : State) (y : Sample) : (s.deliver y).samplesOut = s.samplesOut ++ [y] := rfl
@[simp] theorem State.deliver_histReqs (s : State) (y : Sample) : (s.deliver y).histReqs = s.histReqs := rfl
@[simp] theorem State.deliver_result (s : State) (y : Sample) : (s.deliver y).result = s.result := rfl

/-! ### State.resetHardware -/

@[simp] theorem State.resetHardware_params (c : Cfg) (s : State) :
    (s.resetHardware c).params = (State.resetOf c).params := rfl
@[simp] theorem State.resetHardware_snap (c : Cfg) (s : State) :
    (s.resetHardware c).snap = (State.resetOf c).snap := rfl
@[simp] theorem State.resetHardware_cursor (c : Cfg) (s : State) :
    (s.resetHardware c).cursor = (State.resetOf c).cursor := rfl
@[simp] theorem State.resetHardware_bits (c : Cfg) (s : State) :
    (s.resetHardware c).bits = (State.resetOf c).bits := rfl
@[simp] theorem State.resetHardware_synth (c : Cfg) (s : State) :
    (s.resetHardware c).synth = (State.resetOf c).synth := rfl
@[simp] theorem State.resetHardware_suppressWrite (c : Cfg) (s : State) :
    (s.resetHardware c).suppressWrite = (State.resetOf c).suppressWrite := rfl
@[simp] theorem State.resetHardware_cmdStatus (c : Cfg) (s : State) :
    (s.resetHardware c).cmdStatus = (State.resetOf c).cmdStatus := rfl
@[simp] theorem State.resetHardware_pending (c : Cfg) (s : State) : (s.resetHardware c).pending = s.pending := rfl
@[simp] theorem State.resetHardware_timePort (c : Cfg) (s : State) : (s.resetHardware c).timePort = s.timePort := rfl
@[simp] theorem State.resetHardware_samplesOut (c : Cfg) (s : State) : (s.resetHardware c).samplesOut = s.samplesOut := rfl
@[simp] theorem State.resetHardware_histReqs (c : Cfg) (s : State) : (s.resetHardware c).histReqs = s.histReqs := rfl
@[simp] theorem State.resetHardware_result (c : Cfg) (s : State) :
    (s.resetHardware c).result = (State.resetOf c).result := rfl

/-! ### State.refill: the fields it never writes -/

@[simp] theorem State.refill_params (c : Cfg) (s : State) : (s.refill c).params = s.params := by
  unfold State.refill; split <;> rfl

@[simp] theorem State.refill_suppressWrite (c : Cfg) (s : State) : (s.refill c).suppressWrite = s.suppressWrite := by
  unfold State.refill; split <;> rfl

@[simp] theorem State.refill_cmdStatus (c : Cfg) (s : State) : (s.refill c).cmdStatus = s.cmdStatus := by
  unfold State.refill; split <;> rfl

@[simp] theorem State.refill_pending (c : Cfg) (s : State) : (s.refill c).pending = s.pending := by
  unfold State.refill; split <;> rfl

@[simp] theorem State.refill_timePort (c : Cfg) (s : State) : (s.refill c).timePort = s.timePort := by
  unfold State.refill; split <;> rfl

@[simp] theorem State.refill_samplesOut (c : Cfg) (s : State) : (s.refill c).samplesOut = s.samplesOut := by
  unfold State.refill; split <;> rfl

@[simp] theorem State.refill_histReqs (c : Cfg) (s : State) : (s.refill c).histReqs = s.histReqs := by
  unfold State.refill; split <;> rfl

@[simp] theorem State.refill_result (c : Cfg) (s : State) : (s.refill c).result = s.result := by
  unfold State.refill; split <;> rfl

/-! ### State.nextBit: the fields it never writes -/

@[simp] theorem State.nextBit_params (c : Cfg) (s : State) : (s.nextBit c).params = s.params := by
  simp [State.nextBit]

@[simp] theorem State.nextBit_suppressWrite (c : Cfg) (s : State) : (s.nextBit c).suppressWrite = s.suppressWrite := by
  simp [State.nextBit]

@[simp] theorem State.nextBit_cmdStatus (c : Cfg) (s : State) : (s.nextBit c).cmdStatus = s.cmdStatus := by
  simp [State.nextBit]

@[simp] theorem State.nextBit_pending (c : Cfg) (s : State) : (s.nextBit c).pending = s.pending := by
  simp [State.nextBit]

@[simp] theorem State.nextBit_timePort (c : Cfg) (s : State) : (s.nextBit c).timePort = s.timePort := by
  simp [State.nextBit]

@[simp] theorem State.nextBit_samplesOut (c : Cfg) (s : State) : (s.nextBit c).samplesOut = s.samplesOut := by
  simp [State.nextBit]

@[simp] theorem State.nextBit_histReqs (c : Cfg) (s : State) : (s.nextBit c).histReqs = s.histReqs := by
  simp [State.nextBit]

@[simp] theorem State.nextBit_result (c : Cfg) (s : State) : (s.nextBit c).result = s.result := by
  simp [State.nextBit]

/-! ### State.loadBit: the fields it never writes -/

@[simp] theorem State.loadBit_params (c : Cfg) (s : State) : (s.loadBit c).params = s.params := by
  unfold State.loadBit; split <;> simp

@[simp] theorem State.loadBit_suppressWrite (c : Cfg) (s : State) : (s.loadBit c).suppressWrite = s.suppressWrite := by
  unfold State.loadBit; split <;> simp

@[simp] theorem State.loadBit_cmdStatus (c : Cfg) (s : State) : (s.loadBit c).cmdStatus = s.cmdStatus := by
  unfold State.loadBit; split <;> simp

@[simp] theorem State.loadBit_pending (c : Cfg) (s : State) : (s.loadBit c).pending = s.pending := by
  unfold State.loadBit; split <;> simp

@[simp] theorem State.loadBit_timePort (c : Cfg) (s : State) : (s.loadBit c).timePort = s.timePort := by
  unfold State.loadBit; split <;> simp

@[simp] theorem State.loadBit_samplesOut (c : Cfg) (s : State) : (s.loadBit c).samplesOut = s.samplesOut := by
  unfold State.loadBit; split <;> simp

@[simp] theorem State.loadBit_histReqs (c : Cfg) (s : State) : (s.loadBit c).histReqs = s.histReqs := by
  unfold State.loadBit; split <;> simp

@[simp] theorem State.loadBit_result (c : Cfg) (s : State) : (s.loadBit c).result = s.result := by
  unfold State.loadBit; split <;> simp

/-! ### State.sample and State.produce: the fields they never write -/

@[simp] theorem State.sample_params (c : Cfg) (s : State) : (s.sample c).params = s.params := by
  simp [State.sample]

@[simp] theorem State.sample_suppressWrite (c : Cfg) (s : State) : (s.sample c).suppressWrite = s.suppressWrite := by
  simp [State.sample]

@[simp] theorem State.sample_cmdStatus (c : Cfg) (s : State) : (s.sample c).cmdStatus = s.cmdStatus := by
  simp [State.sample]

@[simp] theorem State.sample_pending (c : Cfg) (s : State) : (s.sample c).pending = s.pending := by
  simp [State.sample]

@[simp] theorem State.sample_timePort (c : Cfg) (s : State) : (s.sample c).timePort = s.timePort := by
  simp [State.sample]

@[simp] theorem State.sample_histReqs (c : Cfg) (s : State) : (s.sample c).histReqs = s.histReqs := by
  simp [State.sample]

@[simp] theorem State.sample_result (c : Cfg) (s : State) : (s.sample c).result = s.result := by
  simp [State.sample]

@[simp] theorem State.produce_params (c : Cfg) (n : Nat) (s : State) : (s.produce c n).params = s.params := by
  induction n generalizing s with
  | zero => rfl
  | succ n ih => simp [State.produce, ih]

@[simp] theorem State.produce_suppressWrite (c : Cfg) (n : Nat) (s : State) : (s.produce c n).suppressWrite = s.suppressWrite := by
  induction n generalizing s with
  | zero => rfl
  | succ n ih => simp [State.produce, ih]

@[simp] theorem State.produce_cmdStatus (c : Cfg) (n : Nat) (s : State) : (s.produce c n).cmdStatus = s.cmdStatus := by
  induction n generalizing s with
  | zero => rfl
  | succ n ih => simp [State.produce, ih]

@[simp] theorem State.produce_pending (c : Cfg) (n : Nat) (s : State) : (s.produce c n).pending = s.pending := by
  induction n generalizing s with
  | zero => rfl
  | succ n ih => simp [State.produce, ih]

@[simp] theorem State.produce_timePort (c : Cfg) (n : Nat) (s : State) : (s.produce c n).timePort = s.timePort := by
  induction n generalizing s with
  | zero => rfl
  | succ n ih => simp [State.produce, ih]

@[simp] theorem State.produce_histReqs (c : Cfg) (n : Nat) (s : State) : (s.produce c n).histReqs = s.histReqs := by
  induction n generalizing s with
  | zero => rfl
  | succ n ih => simp [State.produce, ih]

@[simp] theorem State.produce_result (c : Cfg) (n : Nat) (s : State) : (s.produce c n).result = s.result := by
  induction n generalizing s with
  | zero => rfl
  | succ n ih => simp [State.produce, ih]

@[simp] theorem State.sample_samplesOut (c : Cfg) (s : State) :
    (s.sample c).samplesOut = s.samplesOut ++ [s.sampleValue c] := by
  simp [State.sample]

end Sys2Proof.Machine
end

