-- ==== Sys2Proof/Laws/Ops.lean ====
section
/-! SUPPORT. One lemma per shared operation that says what it can do: operand conditioning, the codec, the AF pool, the
cursors, loading a bit, presenting a word, and operations in sequence. -/
namespace Sys2Proof.Machine
open Sys2Proof

/-! ### Decode -/

theorem lane_toLanes (op : BitVec 4) (len : BitVec 7) (l : List Byte) (k : Nat) (hk : k < 64) :
    CmdWord.lane ⟨op, len, toLanes l⟩ k = l.getD k 0 := by
  simp [CmdWord.lane, toLanes, Array.getD, hk]

theorem lane_eq_get (op : BitVec 4) (len : BitVec 7) (data : Vector Byte 64) (k : Nat) (hk : k < 64) :
    CmdWord.lane ⟨op, len, data⟩ k = data[k] := by
  simp [CmdWord.lane, Array.getD, hk]

theorem low16_bytes16 (op : BitVec 4) (len : BitVec 7) (v : BitVec 16) :
    CmdWord.low16 ⟨op, len, toLanes (bytes16 v)⟩ = v := by
  unfold CmdWord.low16
  rw [lane_toLanes _ _ _ 1 (by decide), lane_toLanes _ _ _ 0 (by decide)]
  change v.extractLsb' 8 8 ++ v.extractLsb' 0 8 = v
  apply BitVec.eq_of_getLsbD_eq
  intro i hi
  simp only [BitVec.getLsbD_append, BitVec.getLsbD_extractLsb']
  by_cases h : i < 8
  · simp [h]
  · simp [h, show i - 8 < 8 by omega, show 8 + (i - 8) = i by omega]

theorem low32_bytes32 (op : BitVec 4) (len : BitVec 7) (v : BitVec 32) :
    CmdWord.low32 ⟨op, len, toLanes (bytes32 v)⟩ = v := by
  unfold CmdWord.low32
  rw [lane_toLanes _ _ _ 3 (by decide), lane_toLanes _ _ _ 2 (by decide), lane_toLanes _ _ _ 1 (by decide),
    lane_toLanes _ _ _ 0 (by decide)]
  change v.extractLsb' 24 8 ++ v.extractLsb' 16 8 ++ v.extractLsb' 8 8 ++ v.extractLsb' 0 8 = v
  apply BitVec.eq_of_getLsbD_eq
  intro i hi
  simp only [BitVec.getLsbD_append, BitVec.getLsbD_extractLsb']
  by_cases h : i < 8
  · simp [h]
  by_cases h1 : i < 16
  · simp [h, show i - 8 < 8 by omega, show 8 + (i - 8) = i by omega]
  by_cases h2 : i < 24
  · simp [h, show ¬ i - 8 < 8 by omega, show i - 8 - 8 < 8 by omega, show 16 + (i - 8 - 8) = i by omega]
  · simp [h, show ¬ i - 8 < 8 by omega, show ¬ i - 8 - 8 < 8 by omega, show i - 8 - 8 - 8 < 8 by omega,
      show 24 + (i - 8 - 8 - 8) = i by omega]

theorem chars_toLanes (op : BitVec 4) (len : BitVec 7) (n : Nat) (hn : n ≤ 64) (c : Vector Byte n) :
    CmdWord.chars n ⟨op, len, toLanes c.toList⟩ = c := by
  apply Vector.ext
  intro i hi
  simp only [CmdWord.chars, Vector.getElem_ofFn]
  rw [lane_toLanes _ _ _ i (by omega)]
  simp [hi]

theorem bit0_byteOfBit (op : BitVec 4) (len : BitVec 7) (b : Bool) :
    CmdWord.bit0 ⟨op, len, toLanes [byteOfBit b]⟩ = b := by
  unfold CmdWord.bit0
  rw [lane_toLanes _ _ _ 0 (by decide)]
  cases b <;> rfl

/-! ### Operands -/

theorem fitText_get {n : Nat} (len : BitVec 7) (chars : Vector Byte n) (k : Fin n) :
    (fitText len chars).get k = if k.val < len.toNat then chars.get k else 0x20#8 := by
  simp [fitText, Vector.get, space]
  rfl

theorem clampPty_toNat (pty : BitVec 8) : (clampPty pty).toNat = min pty.toNat 31 := by
  simp [clampPty, ptyMax]

/-! ### The codec -/

theorem mhzToCode_valid (hz : BitVec 32) (h1 : 87600000 ≤ hz.toNat) (h2 : hz.toNat ≤ 107900000)
    (h3 : (hz.toNat - 87500000) % 100000 = 0) : (mhzToCode hz).toNat = (hz.toNat - 87500000) / 100000 := by
  unfold mhzToCode
  rw [if_neg (by simp [afLoHz, afHiHz]; omega), if_neg (by simp [afBaseHz, afStepHz]; omega)]
  simp [afBaseHz, afStepHz]; omega

theorem mhzToCode_invalid (hz : BitVec 32)
    (h : hz.toNat < 87600000 ∨ 107900000 < hz.toNat ∨ (hz.toNat - 87500000) % 100000 ≠ 0) :
    mhzToCode hz = afReject := by
  unfold mhzToCode
  split
  · rfl
  · rw [if_pos]
    simp [afBaseHz, afStepHz, afLoHz, afHiHz] at *; omega

/-! ### The AF pool -/

theorem appendAf_full (s : State) (code : Byte) (h : s.params.afPool.length = 25) :
    s.appendAf code = s.reject .afFull := if_pos h

theorem appendAf_room (s : State) (code : Byte) (h : s.params.afPool.length ≠ 25) :
    s.appendAf code = s.accept { s.params with afPool := s.params.afPool ++ [code] } := if_neg h

theorem appendAf_wf (s : State) (code : Byte) (hs : s.params.Wf) (h1 : 1 ≤ code.toNat) (h2 : code.toNat ≤ 204) :
    (s.appendAf code).params.Wf := by
  unfold State.appendAf
  split
  · exact hs
  · rename_i hlen
    refine ⟨?_, ?_⟩
    · have hle := hs.1
      simp only [StationParams.afCount] at hlen
      simp only [State.accept_params, List.length_append, List.length_singleton]
      omega
    · simp only [State.accept_params, List.mem_append, List.mem_singleton]
      rintro x (hx | rfl)
      · exact hs.2 x hx
      · exact ⟨h1, h2⟩

theorem appendAf_snap (s : State) (code : Byte) : (s.appendAf code).snap = s.snap := by
  unfold State.appendAf; split <;> rfl

/-! ### Commands -/

/-- The pool an accepted setter may leave: the old one, none, or the old one with one valid code appended to a pool that
is not full. -/
def poolStep (old new : List Byte) : Prop :=
  new = old ∨ new = [] ∨ ∃ code : Byte, 1 ≤ code.toNat ∧ code.toNat ≤ 204 ∧ old.length ≠ 25 ∧ new = old ++ [code]

theorem appendAf_cases (s : State) (code : Byte) (h1 : 1 ≤ code.toNat) (h2 : code.toNat ≤ 204) :
    s.appendAf code = s.reject .afFull ∨ ∃ p, s.appendAf code = s.accept p ∧ poolStep s.params.afPool p.afPool := by
  by_cases h : s.params.afPool.length = 25
  · exact .inl (appendAf_full s code h)
  · exact .inr ⟨_, appendAf_room s code h, .inr (.inr ⟨code, h1, h2, h, rfl⟩)⟩

/-- Everything a command can do: reject, write `suppress_write`, or accept new StationParams. -/
theorem command_cases (i : Instr) (s t : State) (hc : i.isCommand = true) (h : exec i s = .next t) :
    (∃ why : CmdStatus, why ≠ .ok ∧ t = s.reject why) ∨
    (∃ on, i = .setSuppress on ∧ t = { s with suppressWrite := on, cmdStatus := .ok }) ∨
    (∃ p, (∀ on, i ≠ .setSuppress on) ∧ t = s.accept p ∧ poolStep s.params.afPool p.afPool) := by
  have add : ∀ u : State, (u = s.reject .afFull ∨ ∃ p, u = s.accept p ∧ poolStep s.params.afPool p.afPool) →
      (∀ on, i ≠ .setSuppress on) → t = u →
      (∃ why : CmdStatus, why ≠ .ok ∧ t = s.reject why) ∨
      (∃ on, i = .setSuppress on ∧ t = { s with suppressWrite := on, cmdStatus := .ok }) ∨
      (∃ p, (∀ on, i ≠ .setSuppress on) ∧ t = s.accept p ∧ poolStep s.params.afPool p.afPool) := by
    rintro u (hu | ⟨p, hu, hp⟩) hi rfl
    · exact .inl ⟨_, by decide, hu⟩
    · exact .inr (.inr ⟨p, hi, hu, hp⟩)
  cases i with
  | setPi pi => cases h; exact .inr (.inr ⟨_, by simp, rfl, .inl rfl⟩)
  | setPs len c => cases h; exact .inr (.inr ⟨_, by simp, rfl, .inl rfl⟩)
  | setRt len c => cases h; exact .inr (.inr ⟨_, by simp, rfl, .inl rfl⟩)
  | setTa ta => cases h; exact .inr (.inr ⟨_, by simp, rfl, .inl rfl⟩)
  | setPty pty => cases h; exact .inr (.inr ⟨_, by simp, rfl, .inl rfl⟩)
  | clearAf => cases h; exact .inr (.inr ⟨_, by simp, rfl, .inr (.inl rfl)⟩)
  | setSuppress on => cases h; exact .inr (.inl ⟨on, rfl, rfl⟩)
  | cmdReserved op => cases h; exact .inl ⟨.unknownCmd, by decide, rfl⟩
  | addAfHz hz =>
    simp only [exec, execAddAfHz, Host.Outcome.next.injEq] at h
    by_cases hv : hz.toNat < 87600000 ∨ 107900000 < hz.toNat ∨ (hz.toNat - 87500000) % 100000 ≠ 0
    · rw [if_pos (mhzToCode_invalid hz hv)] at h
      exact .inl ⟨.afInvalid, by decide, h.symm⟩
    · have hcode := mhzToCode_valid hz (by omega) (by omega) (by omega)
      have hne : mhzToCode hz ≠ afReject := by
        intro he; rw [he] at hcode; simp [afReject] at hcode; omega
      rw [if_neg hne] at h
      exact add _ (appendAf_cases s _ (by omega) (by omega)) (by simp) h.symm
  | addAfCode code =>
    simp only [exec, execAddAfCode, Host.Outcome.next.injEq] at h
    by_cases hv : code.toNat < afCodeLo ∨ afCodeHi < code.toNat
    · rw [if_pos hv] at h
      exact .inl ⟨.afInvalid, by decide, h.symm⟩
    · rw [if_neg hv] at h
      simp only [afCodeLo, afCodeHi, not_or, not_lt] at hv
      exact add _ (appendAf_cases s _ hv.1 hv.2) (by simp) h.symm
  | _ => simp [Instr.isCommand] at hc

/-! ### The cursors -/

theorem afEmission_lt (n : Nat) (a : Fin 13) : afEmission n a < afEmissions n := by
  unfold afEmission
  split
  · assumption
  · simp [afEmissions]

theorem afNext_val (n : Nat) (a : Fin 13) (h1 : 1 ≤ n) (h2 : n ≤ 25) :
    (afNext n a).val = (afEmission n a + 1) % (n / 2 + 1) := by
  have h : (afEmission n a + 1) % (n / 2 + 1) < n / 2 + 1 := Nat.mod_lt _ (by omega)
  rw [afNext, if_neg (by omega)]
  simp only [afEmissions, Fin.val_ofNat]
  omega

theorem sampleCount_succ (n : Fin 193) (h : n.val < 192) : (n + 1).val = n.val + 1 := by
  rw [Fin.val_add]; exact Nat.mod_eq_of_lt (by change n.val + 1 < 193; omega)

theorem bitPos_succ (n : Fin 105) (h : n.val < 104) : (n + 1).val = n.val + 1 := by
  rw [Fin.val_add]; exact Nat.mod_eq_of_lt (by change n.val + 1 < 105; omega)

/-! ### Loading a bit -/

theorem refill_of_lt (c : Cfg) (s : State) (h : s.synth.bitPos.val < 104) : s.refill c = s := if_neg (by omega)

theorem refill_of_exhausted (c : Cfg) (s : State) (h : s.synth.bitPos.val = 104) :
    s.refill c = { s.nextGroup c with synth := { s.synth with bitPos := 0 } } := by
  unfold State.refill; rw [if_pos (by omega)]; rfl

theorem refill_bitPos_lt (c : Cfg) (s : State) : (s.refill c).synth.bitPos.val < 104 := by
  unfold State.refill
  split
  · simp
  · omega

theorem loadBit_of_lt (s : State) (h : s.synth.sampleCount.val < 192) : s.loadBit hw = s := by
  have hs : ¬ hw.samplesPerBit ≤ s.synth.sampleCount.val := by change ¬ 192 ≤ _; omega
  exact if_neg hs

theorem loadBit_of_boundary (s : State) (h : s.synth.sampleCount.val = 192) : s.loadBit hw = s.nextBit hw := by
  have hs : hw.samplesPerBit ≤ s.synth.sampleCount.val := by change 192 ≤ _; omega
  exact if_pos hs

/-! ### The ports and the step -/

theorem present_nil (s : State) (h : s.pending = []) : s.present = (none, s) := by simp [State.present, h]

theorem present_cons (s : State) (i : Instant) (rest : List Instant) (h : s.pending = i :: rest) :
    s.present = (i.next.1, { s with timePort := i.time.getD s.timePort, pending := i.next.2 ++ rest }) := by
  simp [State.present, h]

@[simp] theorem between_instant_time (b : Between) : b.instant.time = b.time := rfl
@[simp] theorem between_instant_reset (b : Between) : b.instant.reset = b.reset := rfl
@[simp] theorem between_instant_synth (b : Between) : b.instant.synth = .idle := rfl
@[simp] theorem between_instant_control (b : Between) : b.instant.control = b.control := rfl

/-- A reset is presented alone; the events that fall between the samples of a request it wins over stay. -/
theorem next_of_reset (i : Instant) (h : i.reset = true) :
    i.next = (some (.rst 1#1), i.synth.between.map Between.instant) := by simp [Instant.next, h]

/-- A PRODUCE is presented up to the first event between its samples. -/
theorem next_of_produce_event (i : Instant) (n : Nat) (b : Between) (bs : List Between) (hr : i.reset = false)
    (hs : i.synth = .produce n (b :: bs)) (hc : i.control = none) :
    i.next = (some (.produce (min b.after n)), [b.instant, Instant.ofSynth (.produce (n - b.after) bs)]) := by
  simp [Instant.next, hr, hs, hc]

/-- A PRODUCE with nothing between its samples is presented whole. -/
theorem next_of_produce (i : Instant) (n : Nat) (hr : i.reset = false) (hs : i.synth = .produce n [])
    (hc : i.control = none) : i.next = (some (.produce n), []) := by simp [Instant.next, hr, hs, hc]

/-- Presenting a word changes the inputs alone. -/
theorem present_frame (s : State) : SameControl s s.present.2 ∧ SameSynthesis s s.present.2 := by
  unfold State.present
  split <;> exact ⟨⟨rfl, rfl, rfl, rfl⟩, ⟨rfl, rfl, rfl, rfl, rfl⟩⟩

/-- No port presents a micro-operation (decision D22). -/
theorem present_not_uop (s s' : State) (u : UopWord) : s.present ≠ (some (.uop u), s') := by
  unfold State.present
  split
  · simp
  · simp only [Instant.next]
    split
    · simp
    · split <;> simp

theorem decode_not_micro (w : PortWord) (i : Instr) (hport : ∀ u, w ≠ .uop u) (h : decode w = .ok i) :
    i.isMicro = false := by
  cases w with
  | control w =>
    simp only [decode, Except.ok.injEq] at h
    subst h
    unfold decodeCmd
    split <;> rfl
  | synth b => simp only [decode] at h; split at h <;> cases h; rfl
  | produce n => cases h; rfl
  | rst b => simp only [decode] at h; split at h <;> cases h; rfl
  | uop u => exact absurd rfl (hport u)

/-- Everything a step can do: nothing but present, or run one operation that a port selects. -/
theorem step_cases (s t : State) (h : step s = .next t) :
    t = s.present.2 ∨ ∃ i : Instr, i.isMicro = false ∧ exec i s.present.2 = .next t := by
  unfold step at h
  split at h
  · rename_i s' hp
    cases h; left; rw [hp]
  · rename_i w s' hp
    split at h
    · rename_i i hd
      refine .inr ⟨i, decode_not_micro w i (fun u hu => present_not_uop s s' u (hu ▸ hp)) hd, ?_⟩
      rw [hp]; exact h
    · cases h; left; rw [hp]

/-! ### Sequences -/

@[simp] theorem execAll_nil (s : State) : execAll [] s = .next s := rfl

theorem execAll_cons (i : Instr) (is : List Instr) (s t : State) (h : exec i s = .next t) :
    execAll (i :: is) s = execAll is t := by simp [execAll, h]

theorem execAll_append (l m : List Instr) (s t : State) (h : execAll l s = .next t) :
    execAll (l ++ m) s = execAll m t := by
  induction l generalizing s with
  | nil => cases h; rfl
  | cons i is ih =>
    simp only [execAll, List.cons_append] at h ⊢
    split at h
    · exact ih _ h
    · cases h
    · cases h

end Sys2Proof.Machine
end

