-- ==== Sys2Proof/Laws/Ring.lean ====
section
/-! SUPPORT. The laws of RING: a read after a write, and that every operation on it keeps its size and its cursors in
range (rules R30, R34). -/
namespace Sys2Proof.Machine
open Sys2Proof

theorem ringGet_ringAdd_same (c : Cfg) (ring : List Sample) (i : Nat) (v : Sample) (h : i < ring.length) :
    ringGet c (ringAdd c ring i v) i = c.add (ringGet c ring i) v := by
  simp [ringGet, ringAdd, List.getD, h]

theorem ringGet_ringAdd_other (c : Cfg) (ring : List Sample) (i k : Nat) (v : Sample) (h : i ≠ k) :
    ringGet c (ringAdd c ring i v) k = ringGet c ring k := by
  simp [ringGet, ringAdd, List.getD, List.getElem?_set_ne h]

theorem ringGet_ringClear_same (c : Cfg) (ring : List Sample) (i : Nat) :
    ringGet c (ringClear c ring i) i = c.zero := by
  by_cases h : i < ring.length <;> simp [ringGet, ringClear, List.getD, h]

theorem ringGet_ringClear_other (c : Cfg) (ring : List Sample) (i k : Nat) (h : i ≠ k) :
    ringGet c (ringClear c ring i) k = ringGet c ring k := by
  simp [ringGet, ringClear, List.getD, List.getElem?_set_ne h]

@[simp] theorem ringAdd_length (c : Cfg) (ring : List Sample) (i : Nat) (v : Sample) :
    (ringAdd c ring i v).length = ring.length := List.length_set

@[simp] theorem ringClear_length (c : Cfg) (ring : List Sample) (i : Nat) :
    (ringClear c ring i).length = ring.length := List.length_set

@[simp] theorem overlapAdd_length (c : Cfg) (d : Bool) (base n j : Nat) (ring : List Sample) :
    (overlapAdd c d base n j ring).length = ring.length := by
  induction n generalizing j ring with
  | zero => rfl
  | succ n ih => simp [overlapAdd, ih]

/-- Two offsets below `B` from one base reach the same slot only if they are equal. -/
theorem ring_offset_inj (b base i j : Nat) (hi : i < b) (hj : j < b) (h : (base + i) % b = (base + j) % b) : i = j :=
  Nat.ModEq.eq_of_lt_of_lt (Nat.ModEq.add_left_cancel' base (show base + i ≡ base + j [MOD b] from h)) hi hj

/-- Taps leave every slot they do not fall on. -/
theorem overlapAdd_other (c : Cfg) (d : Bool) (base n j : Nat) (ring : List Sample) (k : Nat)
    (h : ∀ i, j ≤ i → i < j + n → (base + i) % c.ringSize ≠ k) :
    ringGet c (overlapAdd c d base n j ring) k = ringGet c ring k := by
  induction n generalizing j ring with
  | zero => rfl
  | succ n ih =>
    simp only [overlapAdd]
    rw [ih _ _ (fun i h1 h2 => h i (by omega) (by omega)), ringGet_ringAdd_other]
    exact h j (le_refl _) (by omega)

/-- Tap `i` adds its pulse value to the slot it falls on, once. -/
theorem overlapAdd_tap (c : Cfg) (d : Bool) (base n j : Nat) (ring : List Sample) (hl : ring.length = c.ringSize)
    (hb : j + n ≤ c.ringSize) (i : Nat) (h1 : j ≤ i) (h2 : i < j + n) :
    ringGet c (overlapAdd c d base n j ring) ((base + i) % c.ringSize) =
      c.add (ringGet c ring ((base + i) % c.ringSize)) (pulse c d i) := by
  induction n generalizing j ring with
  | zero => omega
  | succ n ih =>
    simp only [overlapAdd]
    by_cases hij : i = j
    · subst hij
      rw [overlapAdd_other]
      · rw [ringGet_ringAdd_same]
        rw [hl]; exact Nat.mod_lt _ (by omega)
      · intro k hk1 hk2 he
        have := ring_offset_inj c.ringSize base k i (by omega) (by omega) he
        omega
    · rw [ih _ _ (by simpa using hl) (by omega) (by omega) (by omega), ringGet_ringAdd_other]
      intro he
      exact hij (ring_offset_inj c.ringSize base j i (by omega) (by omega) he).symm

/-- Nothing is owed once every pulse has been read out. -/
theorem envelope_past (c : Cfg) (ds : List Bool) (t : Nat) (h : c.filterSize < t) : envelope c ds t = c.zero := by
  induction ds generalizing t with
  | nil => rfl
  | cons d ds ih =>
    simp only [envelope]
    rw [if_neg (by omega)]
    exact ih _ (by omega)

/-- A ring of `B` slots has room for one bit's advance and one tap at least. -/
theorem hw_ringSize_pos : 0 < hw.ringSize := by
  change 0 < 192 + _; omega

theorem olaAdd_shape (c : Cfg) (d : Bool) (s : State) (h : s.synth.Shape c) (hb : 0 < c.ringSize) :
    (s.olaAdd c d).synth.Shape c :=
  ⟨by simpa [State.olaAdd] using h.ringLength, Nat.mod_lt _ hb, h.outIdx_lt⟩

theorem readOut_shape (c : Cfg) (s : State) (h : s.synth.Shape c) (hb : 0 < c.ringSize) :
    (s.readOut c).synth.Shape c :=
  ⟨by simpa [State.readOut] using h.ringLength, h.inIdx_lt, Nat.mod_lt _ hb⟩

end Sys2Proof.Machine
end

