-- ==== Sys2Proof/Tests/Slice0.lean ====
section
/-! SUPPORT. Tests: expected values from spec/95_test_vectors.md and the examples in the rules, one step each, and words
written out from the encodings of 30_encoding.md. -/
namespace Sys2Proof.Tests
open Sys2Proof Sys2Proof.Machine

/-! ### Helpers -/

/-- The next state of an outcome; `State.reset` where there is none. -/
def after (o : Host.Outcome State Fault Refusal) : State :=
  match o with
  | .next t => t
  | _ => State.reset

/-- Whether an outcome is a next state. -/
def isNext (o : Host.Outcome State Fault Refusal) : Bool :=
  match o with
  | .next _ => true
  | _ => false

/-- What a decoder's answer is, as an option. -/
def decoded (w : PortWord) : Option Instr :=
  match decode w with
  | .ok i => some i
  | .error _ => none

/-- A text as character codes, padded with spaces to `n`. -/
def text (n : Nat) (cs : List Nat) : Vector Byte n :=
  Vector.ofFn fun k : Fin n => BitVec.ofNat 8 (cs.getD k.val 0x20)

/-- "TESTNAME" and "Hello World". -/
def testName : List Nat := [0x54, 0x45, 0x53, 0x54, 0x4E, 0x41, 0x4D, 0x45]
def helloWorld : List Nat := [0x48, 0x65, 0x6C, 0x6C, 0x6F, 0x20, 0x57, 0x6F, 0x72, 0x6C, 0x64]

/-- Program P1's parameters: PI 0x1234, "TESTNAME", "Hello World", PTY 5, TA 1, no AF. -/
def p1 : StationParams where
  pi := 0x1234
  ps := text 8 testName
  rt := text 64 helloWorld
  ta := true
  pty := 5
  afPool := []

/-- The reset state with given parameters. -/
def withParams (p : StationParams) : State := { State.reset with params := p, snap := p }

/-- The reset state with a given AF pool. -/
def withPool (pool : List Byte) : State := withParams { StationParams.reset with afPool := pool }

/-- 2026-11-10 17:42 UTC, offset +1 h (V39g). -/
def t1742 : TimeReading where
  valid := true
  year := 2026
  month := 11
  day := 10
  hour := 17
  min := 42
  offNeg := false
  offMag := 2

/-- 2025-12-31 23:59 UTC, offset -15.5 h (V39e). -/
def t2359 : TimeReading where
  valid := true
  year := 2025
  month := 12
  day := 31
  hour := 23
  min := 59
  offNeg := true
  offMag := 31

/-- A reading of a date. -/
def dateOf (y m d : Nat) : TimeReading where
  valid := true
  year := BitVec.ofNat 12 y
  month := BitVec.ofNat 4 m
  day := BitVec.ofNat 5 d
  hour := 0
  min := 0
  offNeg := false
  offMag := 0

/-- A frame of blocks and checkwords as the vectors write it. -/
def frameOf (b0 b1 b2 b3 : Block) (c0 c1 c2 c3 : Check) : BitVec 104 :=
  b0 ++ c0 ++ b1 ++ c1 ++ b2 ++ c2 ++ b3 ++ c3

/-- The toy configuration of the sample vectors (V40): S = 4, F = 8, integers. -/
def toy : Cfg :=
  { hw with
    samplesPerBit := 4
    filterSize := 8
    waveform := fun j => ⟨([1, 2, 3, 4, -4, -3, -2, -1] : List Int).getD j 0⟩
    zero := ⟨0⟩
    add := fun a b => ⟨a.code + b.code⟩
    neg := fun a => ⟨-a.code⟩ }

/-- Samples of the toy type. -/
def toySamples (l : List Int) : List Sample := l.map Sample.mk

/-- The toy machine at reset with PI 0xA5A5 (V40). -/
def toyReset : State :=
  { State.resetOf toy with params := { StationParams.reset with pi := 0xA5A5 } }

/-- The toy machine after sample 3 of V40: its synthesizer, and the first group's frame. -/
def toyAfter3 : State :=
  { toyReset with
    cursor := { GroupCursor.reset with state := 1, psState := 1 }
    bits := frameOf 0xA5A5 0x0400 0xCDCD 0x2020 0x0C5 0x2E8 0x2B3 0x0DC
    synth :=
      { bitPos := 1, ring := toySamples [0, 0, 0, -4, 4, 3, 2, 1, 0, 0, 0, 0], curOutput := true, sampleCount := 4
        phase := 0, inIdx := 4, outIdx := 3 } }

/-- CLEAR_AF's command word (rule R65). -/
def clearAfWord : CmdWord := ⟨0x8, 0, Vector.replicate 64 0⟩

/-! ### WellFormed: an ill-formed term its check refuses -/

theorem test_wf_refuses_assigned_opcode : (Instr.cmdReserved 0x1).wf = false := by decide
theorem test_wf_accepts_reserved_opcode : (Instr.cmdReserved 0xA).wf = true := by decide

/-! ### Decoding: words written out from rules R64, R65 (op bits 3:0, len bits 10:4, data bits 522:11) and R78 -/

theorem test_decode_scalar_commands :
    decodeTableWord 523 (0x1 + 0x1234 * 2 ^ 11) = some (.setPi 0x1234) ∧
    decodeTableWord 523 (0x4 + 0x1 * 2 ^ 11) = some (.setTa true) ∧
    decodeTableWord 523 (0x5 + 0x28 * 2 ^ 11) = some (.setPty 40) ∧
    decodeTableWord 523 (0x6 + 0x5A1F4A0 * 2 ^ 11) = some (.addAfHz 94500000) ∧
    decodeTableWord 523 (0x7 + 0x0A * 2 ^ 11) = some (.addAfCode 10) ∧
    decodeTableWord 523 0x8 = some .clearAf ∧
    decodeTableWord 523 (0x9 + 0x1 * 2 ^ 11) = some (.setSuppress true) ∧
    decodeTableWord 523 (0xF + 3 * 2 ^ 4 + 7 * 2 ^ 11) = some (.cmdReserved 0xF) := by decide +kernel
theorem test_decode_text_commands :
    decodeTableWord 523 (0x2 + 8 * 2 ^ 4 + 0x454D414E54534554 * 2 ^ 11) = some (.setPs 8 (text 8 testName)) ∧
    decodeTableWord 523 (0x3 + 11 * 2 ^ 4 + 0x646C726F57206F6C6C6548 * 2 ^ 11) =
      some (.setRt 11 (Vector.ofFn fun k : Fin 64 => BitVec.ofNat 8 (helloWorld.getD k.val 0))) := by decide +kernel
theorem test_decode_reserved_low : decodeTableWord 8 0x0 = some (.cmdReserved 0x0) := by decide
theorem test_decode_sample : decoded (.synth 1#1) = some .sample := by decide
theorem test_decode_no_sample : decoded (.synth 0#1) = none := by decide
theorem test_decode_produce : decoded (.produce 416) = some (.produce 416) := by decide
theorem test_decode_reset : decoded (.rst 1#1) = some .reset := by decide
theorem test_decode_crc10 : decoded (.uop ⟨0b0000, .block 0x1234⟩) = some (.crc10 0x1234) := by decide
theorem test_decode_mhzToCode : decoded (.uop ⟨0b0001, .hz 94500000⟩) = some (.mhzToCode 94500000) := by decide
theorem test_decode_nextGroup : decoded (.uop ⟨0b0010, .none⟩) = some .nextGroup := by decide
theorem test_decode_group4A : decoded (.uop ⟨0b0011, .time t1742⟩) = some (.group4A t1742) := by decide
theorem test_decode_group0A : decoded (.uop ⟨0b0100, .none⟩) = some .group0A := by decide
theorem test_decode_group2A : decoded (.uop ⟨0b0101, .none⟩) = some .group2A := by decide
theorem test_decode_afBlock : decoded (.uop ⟨0b0110, .none⟩) = some .afBlock := by decide
theorem test_decode_emitFrame : decoded (.uop ⟨0b0111, .blocks ⟨1, 2, 3, 4⟩⟩) = some (.emitFrame ⟨1, 2, 3, 4⟩) := by decide
theorem test_decode_nextBit : decoded (.uop ⟨0b1000, .none⟩) = some .nextBit := by decide
theorem test_decode_olaAdd : decoded (.uop ⟨0b1001, .bit true⟩) = some (.olaAdd true) := by decide
theorem test_decode_readOut : decoded (.uop ⟨0b1010, .none⟩) = some .readOut := by decide
theorem test_decode_modulate : decoded (.uop ⟨0b1011, .sample ⟨5⟩⟩) = some (.modulate ⟨5⟩) := by decide
theorem test_decode_unassigned_uop : decoded (.uop ⟨0b1100, .none⟩) = none := by decide

/-! ### CRC10 (V2 to V9) -/

theorem test_crc10_vectors :
    [0x0000, 0x0001, 0x8000, 0xFFFF, 0x1234, 0x8001, 0xCDCD, 0x2020].map crc10
      = ([0x000, 0x1B9, 0x077, 0x0CD, 0x096, 0x1CE, 0x3DB, 0x168] : List Check) := by decide +kernel
theorem test_exec_crc10 : (after (exec (.crc10 0xA5A5) State.reset)).result = .crc 0x039 := by decide +kernel

/-! ### Commands (V17 to V23b and the rules' examples) -/

theorem test_setPi : (after (exec (.setPi 0x1234) State.reset)).params.pi = 0x1234 := by decide
theorem test_setPi_histReq : (after (exec (.setPi 0x1234) State.reset)).histReqs = 1 := by decide
-- V19: "RADIO 1" with len 7; the eighth lane is not read.
theorem test_setPs_pads : (after (exec (.setPs 7 #v[0x52, 0x41, 0x44, 0x49, 0x4F, 0x20, 0x31, 0xFF]) State.reset)).params.ps
    = #v[0x52, 0x41, 0x44, 0x49, 0x4F, 0x20, 0x31, 0x20] := by decide
-- V18: len 10 is treated as 8.
theorem test_setPs_truncates :
    (after (exec (.setPs 10 #v[0x41, 0x42, 0x43, 0x44, 0x45, 0x46, 0x47, 0x48]) State.reset)).params.ps
    = #v[0x41, 0x42, 0x43, 0x44, 0x45, 0x46, 0x47, 0x48] := by decide
theorem test_setRt : (after (exec (.setRt 11 (text 64 helloWorld)) State.reset)).params.rt = text 64 helloWorld := by
  decide
theorem test_setTa_suppressed : (after (exec (.setTa true) { State.reset with suppressWrite := true })).histReqs = 0 := by
  decide
theorem test_setTa : (after (exec (.setTa true) State.reset)).params.ta = true := by decide
-- X8 and V20.
theorem test_setPty_clamps : (after (exec (.setPty 40) State.reset)).params.pty = 31 := by decide
theorem test_setPty_32 : (after (exec (.setPty 32) State.reset)).params.pty = 31 := by decide
theorem test_addAfHz : (after (exec (.addAfHz 94500000) (withPool [10]))).params.afPool = [10, 70] := by decide
-- V22: an invalid frequency offered to a full pool is AF_INVALID.
theorem test_addAfHz_invalid_first :
    (after (exec (.addAfHz 94550000) (withPool (List.replicate 25 1)))).cmdStatus = .afInvalid := by decide
theorem test_addAfCode_full : (after (exec (.addAfCode 204) (withPool (List.replicate 25 1)))).cmdStatus = .afFull := by
  decide
-- V23.
theorem test_addAfCode_205 : (after (exec (.addAfCode 205) State.reset)).cmdStatus = .afInvalid := by decide
theorem test_clearAf : (after (exec .clearAf (withPool [10, 20, 30]))).params.afPool = [] := by decide
theorem test_setSuppress : (after (exec (.setSuppress true) State.reset)).suppressWrite = true := by decide
theorem test_setSuppress_no_histReq : (after (exec (.setSuppress false) State.reset)).histReqs = 0 := by decide
theorem test_cmdReserved : (after (exec (.cmdReserved 0xF) State.reset)).cmdStatus.code = 3 := by decide
-- V10 to V16.
theorem test_mhzToCode_vectors :
    [87500000, 87600000, 107900000, 108000000, 94500000, 94550000, 87599999, 0, 0xFFFFFFFF].map mhzToCode
      = ([0, 1, 204, 0, 70, 0, 0, 0, 0] : List Byte) := by decide
theorem test_exec_mhzToCode : (after (exec (.mhzToCode 88500000) State.reset)).result = .code 10 := by decide

/-! ### Scheduler (P1, P2, P3, V24 to V39) -/

-- P1, TICK 1.
theorem test_nextGroup_0A : (after (exec .nextGroup (withParams p1))).bits
    = frameOf 0x1234 0x04B0 0xCDCD 0x5445 0x06A 0x3FE 0x2B3 0x1FB := by decide +kernel
-- P3, TICK 1: a CT group leaves the cycle where it is.
theorem test_nextGroup_ct : (after (exec .nextGroup { State.reset with timePort := t1742 })).cursor
    = { GroupCursor.reset with latestMinute := 42 } := by decide
-- V39e.
theorem test_group4A : (after (exec (.group4A t2359) State.reset)).result = .blocks 0x4401 0xDCE1 0x7EFF := by
  decide
theorem test_group4A_minute : (after (exec (.group4A t2359) State.reset)).cursor.latestMinute = 59 := by decide
-- Rule R126's example: segment 2 of "TESTNAME", before PTY.
theorem test_group0A : (after (exec .group0A { withParams p1 with cursor := { GroupCursor.reset with psState := 2 } })).result
    = .blocks 0x0412 0xCDCD 0x4E41 := by decide
theorem test_group0A_wraps :
    (after (exec .group0A { State.reset with cursor := { GroupCursor.reset with psState := 3 } })).cursor.psState = 0 := by
  decide
-- Rule R128's example, before PTY.
theorem test_group2A : (after (exec .group2A (withParams p1))).result = .blocks 0x2400 0x4865 0x6C6C := by decide
theorem test_group2A_wraps :
    (after (exec .group2A { State.reset with cursor := { GroupCursor.reset with rtState := 15 } })).cursor.rtState = 0 := by
  decide
-- X4 and V36: the second emission of three codes, the last of twenty-five.
theorem test_afBlock_pair :
    (after (exec .afBlock { withPool [10, 20, 30] with cursor := { GroupCursor.reset with afState := 1 } })).result
    = .af 0x141E := by decide
-- V38b: a stale cursor restarts the sequence.
theorem test_afBlock_stale :
    (after (exec .afBlock { withPool [50] with cursor := { GroupCursor.reset with afState := 3 } })).result
    = .af 0xE132 := by decide
theorem test_afWord_forms :
    [afWord hw [] 0, afWord hw [10] 0, afWord hw [10, 11] 1, afWord hw [10, 11, 12, 13] 2]
      = ([0xCDCD, 0xE10A, 0x0BCD, 0x0DCD] : List Block) := by decide
-- P1: the wire bits of the four blocks after TICK 1.
theorem test_emitFrame_bits : (after (exec (.emitFrame ⟨0x1234, 0x04B0, 0xCDCD, 0x5445⟩) State.reset)).bits
    = 0b0001001000110100_0001101010_0000010010110000_1111111110_1100110111001101_1010110011_0101010001000101_0111111011 := by
  decide +kernel
theorem test_bitAt_first : (after (exec (.emitFrame ⟨0x8000, 0, 0, 0⟩) State.reset)).bitAt 0 = true := by decide +kernel
-- V25.
theorem test_block1_values :
    [withPty hw p1 (psBlock1 hw p1 GroupCursor.reset), withPty hw p1 (rtBlock1 hw { GroupCursor.reset with rtState := 15 })]
      = ([0x04B0, 0x24AF] : List Block) := by decide
-- V39a to V39d.
theorem test_mjd_vectors :
    [mjd hw (dateOf 2000 1 1), mjd hw (dateOf 1900 3 1), mjd hw (dateOf 2100 2 28), mjd hw (dateOf 2024 2 29),
      mjd hw (dateOf 1958 1 1)] = ([51544, 15079, 88127, 60369, 36204] : List (BitVec 17)) := by decide

/-! ### Synthesizer (V40, V44) -/

-- V40, i = 0: NEXT_GROUP, NEXT_BIT and the first sample.
theorem test_sample_first : (toyReset.sample toy).synth =
    { bitPos := 1, ring := toySamples [-1, -2, -3, -4, 4, 3, 2, 1, 0, 0, 0, 0], curOutput := true, sampleCount := 1
      phase := 1, inIdx := 4, outIdx := 0 } := by decide +kernel
-- V40, i = 4: the second pulse overlaps the first.
theorem test_sample_overlap : (toyAfter3.sample toy).synth =
    { bitPos := 2, ring := toySamples [0, 0, 0, 0, 3, 1, -1, -3, 4, 3, 2, 1], curOutput := true, sampleCount := 1
      phase := 1, inIdx := 8, outIdx := 4 } := by decide
-- V40: the first group's frame.
theorem test_sample_frame : (toyReset.sample toy).bits = toyAfter3.bits := by decide +kernel
-- V42: the first eight samples.
theorem test_produce_toy : (toyReset.produce toy 8).samplesOut = toySamples [0, -1, 0, 3, 0, 3, 0, 1] := by decide +kernel
theorem test_produce_zero : (after (exec (.produce 0) State.reset)).synth.bitPos = 104 := by decide
theorem test_exec_sample : (after (exec .sample State.reset)).synth.bitPos = 1 := by decide
theorem test_exec_sample_count : (after (exec .sample State.reset)).synth.sampleCount = 1 := by decide
-- Rule R151's example: `cur_output = 1`, `b = 1` gives 0.
theorem test_nextBit : (after (exec .nextBit
    { State.reset with bits := frameOf 0x8000 0 0 0 0 0 0 0, synth := { State.reset.synth with bitPos := 0, curOutput := true } })).synth.curOutput
    = false := by decide
theorem test_nextBit_refills : (after (exec .nextBit State.reset)).synth.bitPos = 1 := by decide
-- Rule R153's example.
theorem test_olaAdd_toy : (toyReset.olaAdd toy true).synth.ring = toySamples [-1, -2, -3, -4, 4, 3, 2, 1, 0, 0, 0, 0] := by
  decide
theorem test_exec_olaAdd : isNext (exec (.olaAdd true) State.reset) = true := by decide
-- Rule R154's example: the slot read returns 5 and is zeroed.
theorem test_readOut_toy : (toyAfter3.readOut toy).synth.ring = toySamples [0, 0, 0, 0, 4, 3, 2, 1, 0, 0, 0, 0] := by
  decide
theorem test_exec_readOut : (after (exec .readOut
    { State.reset with synth := { State.reset.synth with ring := [⟨5⟩, ⟨7⟩], outIdx := 0 } })).result = .sample ⟨5⟩ := by
  decide
-- V44.
theorem test_modulate_toy : [0, 1, 2, 3].map (fun p => carrier toy p ⟨5⟩) = toySamples [0, 5, 0, -5] := by decide
theorem test_exec_modulate : (after (exec (.modulate ⟨5⟩) { State.reset with synth := { State.reset.synth with phase := 3 } })).synth.phase
    = 0 := by decide
-- X5: B = 0001001000110100 encoded from cell 0.
theorem test_diff_x5 :
    encodeBits false [false, false, false, true, false, false, true, false, false, false, true, true, false, true, false, false]
    = [false, false, false, true, true, true, false, false, false, false, true, false, false, true, true, true] := by decide

/-! ### Reset, ports and step -/

theorem test_reset : (after (exec .reset (withParams p1))).params = StationParams.reset := by decide
theorem test_reset_keeps_outputs : (after (exec .reset { State.reset with histReqs := 3 })).histReqs = 3 := by decide
theorem test_step_idle : isNext (step State.reset) = true := by decide
theorem test_step_command : (after (step (State.reset.withFetchWord 8 0x8))).cmdStatus = .ok := by decide
theorem test_step_reserved : (after (step (State.reset.withFetchWord 8 0xA))).cmdStatus = .unknownCmd := by decide
-- Rule R53: the sample first; the command's word is still pending.
theorem test_step_sample_before_command :
    (after (step { State.reset with pending := [⟨none, false, .sample, some clearAfWord⟩] })).pending
    = [Instant.ofCommand clearAfWord] := by decide
-- Rule R207d: a command presented with reset does not happen.
theorem test_step_reset_wins :
    (after (step { State.reset with pending := [⟨none, true, .sample, some clearAfWord⟩] })).pending = [] := by decide

/-! ### The host's side -/

theorem test_channel_ta_on : channelCommand false (.ta [0x4F, 0x4E]) = some (.setTa true) := by decide
theorem test_channel_rt_dropped : channelCommand true (.rt [0x41]) = none := by decide
-- Rules R184, R105: a PTY line goes through the normal setter, which clamps it.
theorem test_history_pty_clamped :
    (after (execAll (reloadHistory false (some [.pty 40])).2 State.reset)).params.pty = 31 := by decide
-- X6: the history file's lines, but for its texts.
theorem test_history_af_line : (writeHistory false { p1 with afPool := [10, 20] }).drop 4 = [.taOn, .af [10, 20]] := by decide

/-! ### Witnesses: a concrete state and operands that meet the hypotheses of each statement that has some -/

/-- A state with one bit of its frame left and one sample of its bit left. -/
def midBit : State := { State.reset with synth := { State.reset.synth with bitPos := 103, sampleCount := 191 } }

/-- The same, at the bit boundary. -/
def atBoundary : State := { State.reset with synth := { State.reset.synth with bitPos := 103, sampleCount := 192 } }

/-- Reset, but for a bit whose samples are all still to come: the ring is all zeros. -/
def silentBit : State :=
  { State.reset with synth := { State.reset.synth with sampleCount := 0, inIdx := 192 } }

/-- A reset state that presents one instant. -/
def presenting (i : Instant) : State := { State.reset with pending := [i] }

/-- CLEAR_AF at the same instant as a request of the synthesis port, or as a reset. -/
def both (reset : Bool) (r : SynthRequest) : Instant := ⟨some t1742, reset, r, some clearAfWord⟩

theorem witness_DecodeOfEncode : (Instr.setPs 127 (text 8 testName)).wf = true ∧ (Instr.cmdReserved 0x0).wf = true ∧
    (Instr.cmdReserved 0xF).wf = true := by decide
theorem witness_DecodedOperationsAreWellFormed : decode (.control clearAfWord) = .ok .clearAf ∧
    decode (.control ⟨0xF, 127, Vector.replicate 64 0xFF⟩) = .ok (.cmdReserved 0xF) ∧
    decode (.uop ⟨0xB, .sample ⟨0⟩⟩) = .ok (.modulate ⟨0⟩) := by decide
theorem witness_CommandOpcodeMap : (0x0#4 = 0 ∨ 10 ≤ (0x0#4).toNat) ∧ (0xA#4 = 0 ∨ 10 ≤ (0xA#4).toNat) ∧
    (0xF#4 = 0 ∨ 10 ≤ (0xF#4).toNat) ∧ ¬ (0x9#4 = 0 ∨ 10 ≤ (0x9#4).toNat) := by decide
theorem witness_ReservedCommandOnlySetsStatus : (0x0#4 = 0 ∨ 10 ≤ (0x0#4).toNat) ∧ (0xA#4 = 0 ∨ 10 ≤ (0xA#4).toNat) := by
  decide
theorem witness_StepRunsDecodedOperation :
    (State.reset.withCommand clearAfWord).present = (some (.control clearAfWord), State.reset) ∧
    decode (.control clearAfWord) = .ok .clearAf := ⟨rfl, by decide⟩
theorem witness_StepRunsDecodedOperation_sample :
    (presenting ⟨none, false, .sample, none⟩).present = (some (.synth 1#1), State.reset) ∧
    decode (.synth 1#1) = .ok .sample := ⟨rfl, by decide⟩
theorem witness_StepHoldsStateWhenIdle : State.reset.pending = [] := rfl
theorem witness_SampleBeforeCommandAndResetFirst_reset :
    (presenting (both true .sample)).pending = both true .sample :: [] ∧ (both true .sample).control = some clearAfWord ∧
    (both true .sample).reset = true := ⟨rfl, rfl, rfl⟩
theorem witness_SampleBeforeCommandAndResetFirst_sample :
    (presenting (both false .sample)).pending = both false .sample :: [] ∧ (both false .sample).reset = false ∧
    (both false .sample).synth = .sample := ⟨rfl, rfl, rfl⟩
theorem witness_SampleBeforeCommandAndResetFirst_produce :
    (presenting (both false (.produce 1 []))).pending = both false (.produce 1 []) :: [] ∧
    (both false (.produce 1 [])).reset = false ∧ (both false (.produce 1 [])).synth = .produce (0 + 1) [] := ⟨rfl, rfl, rfl⟩
/-- An instant without a command. -/
def lone (reset : Bool) (r : SynthRequest) : Instant := ⟨some t1742, reset, r, none⟩
theorem witness_EachInstantPresentsItsOperation_reset :
    (presenting (lone true .sample)).pending = lone true .sample :: [] ∧ (lone true .sample).reset = true := ⟨rfl, rfl⟩
theorem witness_EachInstantPresentsItsOperation_no_command (r : SynthRequest) :
    (presenting (lone false r)).pending = lone false r :: [] ∧ (lone false r).reset = false ∧ (lone false r).synth = r ∧
    (lone false r).control = none := ⟨rfl, rfl, rfl, rfl⟩
theorem witness_EachInstantPresentsItsOperation_command (r : SynthRequest) :
    (presenting (both false r)).pending = both false r :: [] ∧ (both false r).reset = false ∧ (both false r).synth = r ∧
    (both false r).control = some clearAfWord := ⟨rfl, rfl, rfl, rfl⟩
/-- CLEAR_AF and a new reading after one sample of a request. -/
def afterOne : Between := ⟨1, some t1742, false, some clearAfWord⟩
/-- PRODUCE with that event between its samples. -/
def produceWithEvent (n : Nat) : Instant := ⟨none, false, .produce n [afterOne], none⟩
theorem witness_CommandFallsBetweenSamplesOfProduce (n : Nat) (h : n = 1 ∨ n = 2) :
    (presenting (produceWithEvent n)).pending = produceWithEvent n :: [] ∧ (produceWithEvent n).reset = false ∧
    (produceWithEvent n).control = none ∧ (produceWithEvent n).synth = .produce n (afterOne :: []) ∧
    afterOne.after ≤ n ∧ afterOne.reset = false ∧ afterOne.control = some clearAfWord :=
  ⟨rfl, rfl, rfl, rfl, by rcases h with rfl | rfl <;> decide, rfl, rfl⟩
-- Rule R158: one sample, then the event, then the other sample.
theorem test_step_command_between_samples : (after (step (presenting (produceWithEvent 2)))).pending
    = [afterOne.instant, Instant.ofSynth (.produce 1 [])] := by decide
theorem test_step_command_between_samples_count :
    (after (step (presenting (produceWithEvent 2)))).synth.sampleCount = 1 := by decide
theorem witness_RejectionWritesStatusOnly : (Instr.addAfCode 205).isCommand = true ∧
    isNext (exec (.addAfCode 205) State.reset) = true ∧ (after (exec (.addAfCode 205) State.reset)).cmdStatus ≠ .ok := by
  decide
theorem witness_HistReqExactlyOnAcceptedSetters : Instr.clearAf.isCommand = true ∧
    isNext (exec .clearAf State.reset) = true ∧ State.reset.suppressWrite = false := by decide
theorem witness_CommandsLeaveSynthesisAlone : (Instr.setPi 1).isCommand = true ∧
    isNext (exec (.setPi 1) State.reset) = true := by decide
theorem witness_SynthesisLeavesControlAlone : Instr.nextGroup.isMicro = true ∧
    isNext (exec .nextGroup State.reset) = true ∧ isNext (exec .sample State.reset) = true := by decide
theorem witness_EveryOperationKeepsPoolBounds : (withPool (List.replicate 25 204)).params.Wf ∧
    (withPool (List.replicate 25 204)).snap.Wf ∧ isNext (exec (.addAfCode 1) (withPool (List.replicate 25 204))) = true := by
  decide
theorem witness_AddAfHz_boundaries : [87599999, 87600000, 107900000, 107900001, 87600001].map (fun hz : BitVec 32 =>
    decide (hz.toNat < 87600000 ∨ 107900000 < hz.toNat ∨ (hz.toNat - 87500000) % 100000 ≠ 0))
    = [true, false, false, true, true] := by decide
theorem witness_MhzToCodeInvertsFrequency : [87600000, 107900000].map (fun hz : BitVec 32 =>
    decide (87600000 ≤ hz.toNat ∧ hz.toNat ≤ 107900000 ∧ (hz.toNat - 87500000) % 100000 = 0)) = [true, true] := by decide
theorem witness_AddAfCode_boundaries : [0, 1, 204, 205].map (fun c : Byte =>
    decide (c.toNat < 1 ∨ 204 < c.toNat)) = [true, false, false, true] := by decide
theorem witness_EmitFrameLaysOutBlocks : ((0x1234 : Block), (0x096#10 ^^^ 0x1B4#10)) =
    [((0 : Block), (0 : Check)), (0, 0), (0, 0), (0x1234, crc10 0x1234 ^^^ 0x1B4#10)].get (3 : Fin 4) := by decide +kernel
theorem witness_NextGroupEmitsClockTime : t1742.valid = true ∧ t1742.min.setWidth 7 ≠ GroupCursor.reset.latestMinute := by
  decide
theorem witness_NextGroupEmitsProgrammeService :
    (State.reset.timePort.valid = false ∨ State.reset.timePort.min.setWidth 7 = State.reset.cursor.latestMinute) ∧
    State.reset.cursor.state.val < 4 := by decide
theorem witness_NextGroupEmitsProgrammeService_sameMinute :
    let s : State := { State.reset with timePort := t1742, cursor := { GroupCursor.reset with state := 3, latestMinute := 42 } }
    s.timePort.valid = true ∧ s.timePort.min.setWidth 7 = s.cursor.latestMinute ∧ s.cursor.state.val < 4 := by decide
theorem witness_NextGroupEmitsRadioText :
    let s : State := { State.reset with cursor := { GroupCursor.reset with state := 4 } }
    s.timePort.valid = false ∧ s.cursor.state = 4 := by decide
theorem witness_AfBlockForms_empty : (withPool []).snap.afPool.length ≤ 25 ∧ (withPool []).snap.afPool.length = 0 := by
  decide
theorem witness_AfBlockForms_count : let s := withPool (List.replicate 25 1)
    s.snap.afPool.length ≤ 25 ∧ 1 ≤ s.snap.afPool.length ∧ s.cursor.afState.val = 0 := by decide
theorem witness_AfBlockForms_pair : let s := { withPool (List.replicate 25 1) with cursor := { GroupCursor.reset with afState := 12 } }
    s.cursor.afState.val < s.snap.afPool.length / 2 + 1 ∧ 1 ≤ s.cursor.afState.val ∧
    2 * s.cursor.afState.val < s.snap.afPool.length := by decide
theorem witness_AfBlockForms_filler : let s := { withPool [1, 2] with cursor := { GroupCursor.reset with afState := 1 } }
    s.cursor.afState.val < s.snap.afPool.length / 2 + 1 ∧ 1 ≤ s.cursor.afState.val ∧
    2 * s.cursor.afState.val = s.snap.afPool.length := by decide
theorem witness_AfPassTransmitsWholePool : 1 ≤ ([204] : List Byte).length ∧ ([204] : List Byte).length ≤ 25 ∧
    1 ≤ (List.replicate 25 (1 : Byte)).length ∧ (List.replicate 25 (1 : Byte)).length ≤ 25 := by decide
theorem witness_CycleIsFourNamesThenText : State.reset.timePort.valid = false ∧ State.reset.cursor.state = 0 ∧
    3 % 5 < 4 ∧ 4 % 5 = 4 ∧ (4 + 1) % 5 = 0 ∧ (79 + 1) % 80 = 0 := by decide
theorem witness_CycleIsFourNamesThenText_ct : let s := { State.reset with timePort := t1742 }
    s.timePort.valid = true ∧ s.timePort.min.setWidth 7 ≠ s.cursor.latestMinute := by decide
/-- The hypotheses of MjdCountsDays on two readings. -/
def dayAfter (t u : TimeReading) : Prop :=
  validDate t.year.toNat t.month.toNat t.day.toNat ∧
  dateKey 1900 3 1 ≤ dateKey t.year.toNat t.month.toNat t.day.toNat ∧
  dateKey t.year.toNat t.month.toNat t.day.toNat < dateKey 2100 2 28 ∧
  (u.year.toNat, u.month.toNat, u.day.toNat) = nextDay t.year.toNat t.month.toNat t.day.toNat
theorem witness_MjdCountsDays_first : dayAfter (dateOf 1900 3 1) (dateOf 1900 3 2) := by unfold dayAfter; decide
theorem witness_MjdCountsDays_last : dayAfter (dateOf 2100 2 27) (dateOf 2100 2 28) := by unfold dayAfter; decide
theorem witness_MjdCountsDays_leap : dayAfter (dateOf 2024 2 28) (dateOf 2024 2 29) := by unfold dayAfter; decide
theorem witness_SampleWithinBit : midBit.synth.sampleCount.val < 192 := by decide
theorem witness_SampleComposesReadOutAndModulate : silentBit.synth.sampleCount.val < 192 := by decide
theorem witness_SampleAtBitBoundaryLoadsBit : State.reset.synth.sampleCount.val = 192 := by decide
theorem witness_NextBitEncodesAndAddsPulse : midBit.synth.bitPos.val < 104 := by decide
theorem witness_NextBitRequestsNewFrame : State.reset.synth.bitPos = 104 := by decide
theorem witness_GroupRenderedOnlyWhenFrameExhausted : atBoundary.midGroup ∧ silentBit.midGroup ∧
    ¬ State.reset.midGroup := by unfold State.midGroup; decide
theorem witness_CommandInvisibleWithinGroup : (Instr.setPi 1).isCommand = true ∧ atBoundary.midGroup := by
  unfold State.midGroup; decide

/-- A replicated list of zeros reads as zero everywhere. -/
theorem ringGet_replicate (c : Cfg) (n i : Nat) : ringGet c (List.replicate n c.zero) i = c.zero := by
  simp only [ringGet, List.getD, List.getElem?_replicate]
  split <;> rfl

theorem witness_OlaAddAddsSignedPulse : State.reset.synth.Shape hw :=
  ⟨List.length_replicate, hw_ringSize_pos, Nat.sub_lt hw_ringSize_pos Nat.one_pos⟩
-- A slot no tap of the first pulse falls on: the one after its last tap.
theorem witness_OlaAddFrame (j : Nat) (h : j < hw.filterSize) :
    (State.reset.synth.inIdx + j) % hw.ringSize ≠ hw.filterSize := by
  have hb : hw.ringSize = 192 + hw.filterSize := rfl
  change (0 + j) % hw.ringSize ≠ hw.filterSize
  rw [Nat.zero_add, Nat.mod_eq_of_lt (by omega)]
  omega
theorem witness_SampleRealisesClosedForm_boundary : RingHolds hw [] State.reset ∧
    State.reset.synth.sampleCount.val = 192 := by
  refine ⟨⟨witness_OlaAddAddsSignedPulse, ?_, fun o _ => ringGet_replicate hw _ _⟩, by decide⟩
  change (hw.ringSize - 1 + 1 + 192) % hw.ringSize = (0 + 192) % hw.ringSize
  rw [Nat.sub_add_cancel hw_ringSize_pos, Nat.add_mod_left, Nat.zero_add]
theorem witness_SampleRealisesClosedForm_within : RingHolds hw [] silentBit ∧ silentBit.synth.sampleCount.val < 192 := by
  refine ⟨⟨⟨List.length_replicate, ?_, Nat.sub_lt hw_ringSize_pos Nat.one_pos⟩, ?_,
    fun o _ => ringGet_replicate hw _ _⟩, by decide⟩
  · exact Nat.lt_add_of_pos_right (Nat.succ_pos Config.filterSizePred)
  · change (hw.ringSize - 1 + 1 + 192) % hw.ringSize = (192 + 0) % hw.ringSize
    rw [Nat.sub_add_cancel hw_ringSize_pos, Nat.add_mod_left]
theorem witness_StepKeepsInvariant : (State.reset.withCommand clearAfWord).Inv ∧
    isNext (step (State.reset.withCommand clearAfWord)) = true :=
  ⟨⟨by decide, by decide, by decide, by decide, fun h => absurd rfl h, by decide,
    ⟨[], witness_OlaAddAddsSignedPulse, witness_SampleRealisesClosedForm_boundary.1.trail,
      fun o _ => ringGet_replicate hw _ _⟩⟩, by decide⟩
theorem witness_HistoryRoundTrip : ({ p1 with afPool := [1, 204] } : StationParams).Wf ∧ State.reset.params.afPool = [] ∧
    State.reset.params.ta = false := by decide

end Sys2Proof.Tests
end

section
/-! Proofs of the statements about the control port's scope: what a rejected command leaves unchanged. -/
namespace Sys2Proof.Machine
open Sys2Proof

/-- Of the three things a command can do, only a rejection leaves a status other than OK. -/
theorem command_rejected (i : Instr) (s t : State) (hc : i.isCommand = true) (h : exec i s = .next t)
    (hst : t.cmdStatus ≠ .ok) : ∃ why : CmdStatus, t = s.reject why := by
  obtain ⟨why, -, ht⟩ | ⟨on, -, rfl⟩ | ⟨p, -, rfl, -⟩ := command_cases i s t hc h
  · exact ⟨why, ht⟩
  · exact absurd rfl hst
  · exact absurd (State.accept_cmdStatus s p) hst

/-- Settles O19: a command that ends with a status other than OK was rejected, and a rejection writes `cmd_status`
alone (rules R8, R208). -/
theorem rejectionWritesStatusOnly : Obligations.RejectionWritesStatusOnly := by
  intro i s t hc h hst
  obtain ⟨why, rfl⟩ := command_rejected i s t hc h hst
  rw [State.reject_cmdStatus, State.reject]

end Sys2Proof.Machine
end

section
/-! Proofs of the statements about the frame of the synthesis side, the pool bounds and the values RESET gives. -/
namespace Sys2Proof.Machine
open Sys2Proof

/-! ### The kinds of operation -/

/-- Every operation is a command, RESET, or one of the synthesis side. -/
theorem operation_kinds (i : Instr) :
    i.isCommand = true ∨ i = .reset ∨ (i = .sample ∨ (∃ n, i = .produce n) ∨ i.isMicro = true) := by
  cases i <;> simp [Instr.isCommand, Instr.isMicro]

/-- Every operation completes: no meaning ends in a fault or a refusal (rules R204, R208). -/
theorem exec_completes (i : Instr) (s : State) : ∃ t, exec i s = .next t := by
  cases i <;> exact ⟨_, rfl⟩

/-- Everything the synthesis side may do about StationParams: it leaves the control side alone, and `SNAP` is kept or
taken from StationParams (rules R18, R26, R215). -/
structure SynthesisFrame (s t : State) : Prop where
  control : SameControl s t
  snap : t.snap = s.snap ∨ t.snap = s.params

/-- An operation that writes neither the control side nor `SNAP`. -/
theorem SynthesisFrame.of_same {s t : State} (control : SameControl s t) (snap : t.snap = s.snap) :
    SynthesisFrame s t := ⟨control, .inl snap⟩

theorem SynthesisFrame.trans {s t u : State} (h : SynthesisFrame s t) (h' : SynthesisFrame t u) :
    SynthesisFrame s u := by
  obtain ⟨⟨hp, hsup, hc, hr⟩, hs⟩ := h
  obtain ⟨⟨hp', hsup', hc', hr'⟩, hs'⟩ := h'
  refine ⟨⟨hp'.trans hp, hsup'.trans hsup, hc'.trans hc, hr'.trans hr⟩, ?_⟩
  rcases hs' with hs' | hs'
  · rwa [hs']
  · exact .inr (hs'.trans hp)

theorem refill_frame (c : Cfg) (s : State) : SynthesisFrame s (s.refill c) := by
  refine ⟨⟨by simp, by simp, by simp, by simp⟩, ?_⟩
  unfold State.refill
  split
  · exact .inr rfl
  · exact .inl rfl

theorem nextBit_frame (c : Cfg) (s : State) : SynthesisFrame s (s.nextBit c) :=
  (refill_frame c s).trans (.of_same ⟨rfl, rfl, rfl, rfl⟩ rfl)

theorem sample_frame (c : Cfg) (s : State) : SynthesisFrame s (s.sample c) := by
  refine ⟨⟨by simp, by simp, by simp, by simp⟩, ?_⟩
  change (s.loadBit c).snap = s.snap ∨ (s.loadBit c).snap = s.params
  unfold State.loadBit
  split
  · exact (nextBit_frame c s).snap
  · exact .inl rfl

theorem produce_frame (c : Cfg) (n : Nat) (s : State) : SynthesisFrame s (s.produce c n) := by
  induction n generalizing s with
  | zero => exact .of_same ⟨rfl, rfl, rfl, rfl⟩ rfl
  | succ n ih => exact (sample_frame c s).trans (ih _)

/-- The frame of every operation of the synthesis side. Of the micro-operations NEXT_GROUP and NEXT_BIT alone write
`SNAP`. -/
theorem synthesis_frame (i : Instr) (s t : State) (hi : i = .sample ∨ (∃ n, i = .produce n) ∨ i.isMicro = true)
    (h : exec i s = .next t) : SynthesisFrame s t := by
  rcases hi with rfl | ⟨n, rfl⟩ | hi
  · cases h; exact sample_frame hw s
  · cases h; exact produce_frame hw n s
  · cases i with
    | nextGroup => cases h; exact ⟨⟨rfl, rfl, rfl, rfl⟩, .inr rfl⟩
    | nextBit => cases h; exact nextBit_frame hw s
    | crc10 | mhzToCode | group4A | group0A | group2A | afBlock | emitFrame | olaAdd | readOut | modulate =>
      cases h; exact .of_same ⟨rfl, rfl, rfl, rfl⟩ rfl
    | _ => cases hi

/-- Settles O22: the control side's half of the frame of the synthesis operations (rules R18, R54, R215). -/
theorem synthesisLeavesControlAlone : Obligations.SynthesisLeavesControlAlone := by
  intro i s t hi h
  exact (synthesis_frame i s t hi h).control

/-! ### The pool bounds -/

theorem poolStep_wf {old new : List Byte} (h : poolStep old new) (hold : poolWf old) : poolWf new := by
  obtain ⟨hlen, hcodes⟩ := hold
  rcases h with rfl | rfl | ⟨code, hlo, hhi, hroom, rfl⟩
  · exact ⟨hlen, hcodes⟩
  · exact ⟨Nat.zero_le _, by simp⟩
  · refine ⟨?_, ?_⟩
    · simp only [afMax, List.length_append, List.length_singleton] at hlen ⊢
      omega
    · simp only [List.mem_append, List.mem_singleton]
      rintro x (hx | rfl)
      · exact hcodes x hx
      · exact ⟨hlo, hhi⟩

/-- A command keeps the pool bounds of StationParams: it leaves them, or writes a pool that `poolStep` allows. -/
theorem command_keeps_params_wf (i : Instr) (s t : State) (hc : i.isCommand = true) (h : exec i s = .next t)
    (hs : s.params.Wf) : t.params.Wf := by
  obtain ⟨why, -, rfl⟩ | ⟨on, -, rfl⟩ | ⟨p, -, rfl, hp⟩ := command_cases i s t hc h
  · exact hs
  · exact hs
  · exact poolStep_wf hp hs

/-- The write frame of a command over the synthesis side and the inputs (rules R100, R215). -/
theorem command_frame (i : Instr) (s t : State) (hc : i.isCommand = true) (h : exec i s = .next t) :
    SameSynthesis s t ∧ SameInputs s t := by
  obtain ⟨why, -, rfl⟩ | ⟨on, -, rfl⟩ | ⟨p, -, rfl, -⟩ := command_cases i s t hc h <;>
    exact ⟨⟨rfl, rfl, rfl, rfl, rfl⟩, ⟨rfl, rfl, rfl⟩⟩

theorem SynthesisFrame.keeps_wf {s t : State} (h : SynthesisFrame s t) (hp : s.params.Wf) (hs : s.snap.Wf) :
    t.params.Wf ∧ t.snap.Wf := by
  obtain ⟨hc, hsnap | hsnap⟩ := h
  · rw [hc.params, hsnap]; exact ⟨hp, hs⟩
  · rw [hc.params, hsnap]; exact ⟨hp, hp⟩

theorem resetParams_wf : StationParams.reset.Wf := ⟨Nat.zero_le _, by simp [StationParams.reset]⟩

/-- Settles O23: a command appends one valid code at most to a pool with room, the synthesis side only copies
StationParams to `SNAP`, and RESET leaves both pools empty (rules R16, R17). -/
theorem everyOperationKeepsPoolBounds : Obligations.EveryOperationKeepsPoolBounds := by
  intro i s t hp hs h
  rcases operation_kinds i with hc | rfl | hi
  · refine ⟨command_keeps_params_wf i s t hc h hp, ?_⟩
    rw [(command_frame i s t hc h).1.snap]; exact hs
  · cases h; exact ⟨resetParams_wf, resetParams_wf⟩
  · exact (synthesis_frame i s t hi h).keeps_wf hp hs

/-! ### RESET -/

theorem replicate_space_get {n : Nat} (k : Fin n) : (Vector.replicate n space).get k = 0x20#8 := by
  simp [Vector.get, space]

/-- Settles O54: every register of rule R39 at its value there. -/
theorem resetValues : Obligations.ResetValues := by
  intro s
  exact ⟨s.resetHardware hw, rfl, rfl, replicate_space_get, replicate_space_get, rfl, rfl, rfl, rfl, rfl, rfl, rfl,
    (by decide : GroupCursor.reset.latestMinute.toInt = -1), rfl, rfl, rfl, rfl, rfl, rfl, List.length_replicate,
    fun _ hx => List.eq_of_mem_replicate hx, rfl, rfl, rfl⟩

end Sys2Proof.Machine
end

section
/-! The invariant of the machine: what RING holds after each part of SAMPLE (rules R153, R154, R159, R163), then every
operation that a port selects, then the step. -/
namespace Sys2Proof.Machine
open Sys2Proof

/-! ### The parts of SAMPLE -/

@[simp] theorem refill_phase (c : Cfg) (s : State) : (s.refill c).synth.phase = s.synth.phase := by
  unfold State.refill; split <;> rfl

@[simp] theorem refill_sampleCount (c : Cfg) (s : State) : (s.refill c).synth.sampleCount = s.synth.sampleCount := by
  unfold State.refill; split <;> rfl

/-- The rest of SAMPLE, once a bit is loaded: READ_OUT, MODULATE and the count (rule R150). -/
def State.emitSample (c : Cfg) (s : State) (y : Sample) : State := (s.readOut c).advancePhase.deliver y

theorem sample_eq_emitSample (c : Cfg) (s : State) : s.sample c = (s.loadBit c).emitSample c (s.sampleValue c) := rfl

theorem emitSample_sampleCount (c : Cfg) (s : State) (y : Sample) (h : s.synth.sampleCount.val < 192) :
    (s.emitSample c y).synth.sampleCount.val = s.synth.sampleCount.val + 1 := sampleCount_succ s.synth.sampleCount h

/-! ### The ring holds what the loaded bits owe -/

/-- RESET's ring of zeros owes nothing (rule R160). -/
theorem ringHolds_reset : RingHolds hw [] State.reset where
  shape := ⟨List.length_replicate, hw_ringSize_pos, Nat.sub_lt hw_ringSize_pos Nat.one_pos⟩
  trail := by
    change (hw.ringSize - 1 + 1 + 192) % hw.ringSize = (0 + 192) % hw.ringSize
    rw [Nat.sub_add_cancel hw_ringSize_pos, Nat.add_mod_left, Nat.zero_add]
  slots _ ho := List.getD_replicate _ (Nat.mod_lt _ hw_ringSize_pos)

/-- RingHolds speaks of the ring, its two cursors and `sample_count` alone. -/
theorem RingHolds.of_synth {c : Cfg} {ds : List Bool} {s t : State} (h : RingHolds c ds s)
    (hring : t.synth.ring = s.synth.ring) (hin : t.synth.inIdx = s.synth.inIdx) (hout : t.synth.outIdx = s.synth.outIdx)
    (hcount : t.synth.sampleCount = s.synth.sampleCount) : RingHolds c ds t := by
  obtain ⟨⟨hlen, hin', hout'⟩, htrail, hslots⟩ := h
  rw [← hring, ← hin, ← hout] at *
  exact ⟨⟨hlen, hin', hout'⟩, by rw [hcount]; exact htrail, by rw [hcount]; exact hslots⟩

/-- A pulse copy laid one slot past the read cursor adds what the new bit owes: tap `j` is due `j + 1` reads on, after
what the bits loaded before it owe (rules R153, R159). -/
theorem overlapAdd_owes (c : Cfg) (d : Bool) (ds : List Bool) (ring : List Sample) (base out : Nat)
    (hlen : ring.length = c.ringSize) (hS : 0 < c.samplesPerBit) (hbase : base = (out + 1) % c.ringSize)
    (howed : ∀ o, o < c.ringSize → ringGet c ring ((out + o) % c.ringSize) = envelope c ds (c.samplesPerBit + o))
    (o : Nat) (ho : o < c.ringSize) :
    ringGet c (overlapAdd c d base c.filterSize 0 ring) ((out + o) % c.ringSize) = envelope c (d :: ds) o := by
  have hB : c.ringSize = c.samplesPerBit + c.filterSize := rfl
  have hslot (j : Nat) : (base + j) % c.ringSize = (out + (1 + j)) % c.ringSize := by
    rw [hbase, Nat.mod_add_mod, Nat.add_assoc]
  simp only [envelope]
  rw [Nat.add_comm o c.samplesPerBit, ← howed o ho]
  split
  · next htap =>
    have htapped := overlapAdd_tap c d base c.filterSize 0 ring hlen (by omega) (o - 1) (by omega) (by omega)
    rwa [hslot, show 1 + (o - 1) = o by omega] at htapped
  · next hno =>
    refine overlapAdd_other c d base c.filterSize 0 ring _ fun j _ hj heq => hno ?_
    have hoff := ring_offset_inj c.ringSize out (1 + j) o (by omega) ho ((hslot j).symm.trans heq)
    omega

theorem ringHolds_refill {c : Cfg} {ds : List Bool} {s : State} (h : RingHolds c ds s) :
    RingHolds c ds (s.refill c) := by
  unfold State.refill
  split
  · exact h.of_synth rfl rfl rfl rfl
  · exact h

/-- NEXT_BIT at the end of a bit's span: the ring holds what is owed with one bit more (rules R151, R153, R159). -/
theorem ringHolds_nextBit {c : Cfg} {ds : List Bool} {s : State} (h : RingHolds c ds s)
    (hspan : s.synth.sampleCount.val = c.samplesPerBit) (hS : 0 < c.samplesPerBit) :
    RingHolds c ((s.nextBit c).synth.curOutput :: ds) (s.nextBit c) := by
  obtain ⟨hshape, htrail, hslots⟩ := ringHolds_refill h
  rw [refill_sampleCount, hspan] at htrail hslots
  have hbase : (s.refill c).synth.inIdx = ((s.refill c).synth.outIdx + 1) % c.ringSize := by
    have hcursors := Nat.ModEq.add_right_cancel' c.samplesPerBit (show _ ≡ _ [MOD c.ringSize] from htrail)
    rw [hcursors, Nat.mod_eq_of_lt hshape.inIdx_lt]
  obtain ⟨hlen, hin, hout⟩ := olaAdd_shape c (s.nextBit c).synth.curOutput (s.refill c) hshape (Nat.add_pos_left hS _)
  refine ⟨⟨hlen, hin, hout⟩, ?_, fun o ho => ?_⟩
  · change _ % c.ringSize = ((s.refill c).synth.inIdx + c.samplesPerBit) % c.ringSize % c.ringSize
    rw [Nat.mod_mod]
    exact htrail
  · change _ = envelope c _ (0 + o)
    rw [Nat.zero_add]
    exact overlapAdd_owes c _ ds _ _ _ hshape.ringLength hS hbase hslots o ho

/-- Within a bit the ring keeps what is owed: the slot read is due no more, and zeroed it is the last of the next `B`
slots, for which nothing is owed yet (rules R154, R159). -/
theorem ringHolds_emitSample {c : Cfg} {ds : List Bool} {s : State} (h : RingHolds c ds s)
    (hcount : s.synth.sampleCount.val < 192) (hS : 0 < c.samplesPerBit) (y : Sample) :
    RingHolds c ds (s.emitSample c y) := by
  have hB : c.ringSize = c.samplesPerBit + c.filterSize := rfl
  obtain ⟨hshape, htrail, hslots⟩ := h
  obtain ⟨hlen, hin, hout⟩ := readOut_shape c s hshape (by omega)
  refine ⟨⟨hlen, hin, hout⟩, ?_, fun o ho => ?_⟩
  · rw [emitSample_sampleCount c s y hcount]
    change ((s.synth.outIdx + 1) % c.ringSize + 1 + c.samplesPerBit) % c.ringSize =
      (s.synth.inIdx + (s.synth.sampleCount.val + 1)) % c.ringSize
    rw [Nat.add_assoc, Nat.mod_add_mod, ← Nat.add_assoc s.synth.inIdx, ← Nat.mod_add_mod _ _ 1, ← htrail,
      Nat.mod_add_mod]
    congr 1; omega
  · rw [emitSample_sampleCount c s y hcount]
    change ringGet c (ringClear c s.synth.ring s.synth.outIdx)
      (((s.synth.outIdx + 1) % c.ringSize + o) % c.ringSize) = _
    rw [Nat.mod_add_mod, Nat.add_assoc]
    by_cases hlast : 1 + o = c.ringSize
    · rw [hlast, Nat.add_mod_right, Nat.mod_eq_of_lt hshape.outIdx_lt, ringGet_ringClear_same,
        envelope_past c ds _ (by omega)]
    · rw [ringGet_ringClear_other, hslots (1 + o) (by omega), Nat.add_assoc]
      intro heq
      have hoff := ring_offset_inj c.ringSize s.synth.outIdx 0 (1 + o) (by omega) (by omega)
        ((Nat.mod_eq_of_lt hshape.outIdx_lt).trans heq)
      omega

/-! ### The invariant -/

/-- The invariant of the synthesis side's registers carries over to a state with the same ones. -/
theorem State.Inv.of_same {s t : State} (h : s.Inv) (hsame : SameSynthesis s t) (hparams : t.params.Wf) : t.Inv := by
  obtain ⟨-, hsnap, hminute, haligned, hframe, hphase, ds, hring⟩ := h
  obtain ⟨esnap, ecursor, ebits, esynth, -⟩ := hsame
  refine ⟨hparams, by rwa [esnap], by rwa [ecursor], by rwa [ecursor], by rwa [esynth, ebits], by rwa [esynth], ds, ?_⟩
  exact hring.of_synth (by rw [esynth]) (by rw [esynth]) (by rw [esynth]) (by rw [esynth])

/-- RESET establishes the invariant from every state: its ring holds what no bits owe, and no bit of the frame is left.
-/
theorem resetHardware_inv (s : State) : (s.resetHardware hw).Inv :=
  ⟨resetParams_wf, resetParams_wf, .inl rfl, rfl, fun hleft => absurd rfl hleft,
    (by decide : 0 = 192 % 4), [], ringHolds_reset.of_synth rfl rfl rfl rfl⟩

/-- Settles O56: the state after reset is what RESET makes of it. -/
theorem resetMeetsInvariant : Obligations.ResetMeetsInvariant := resetHardware_inv State.reset

theorem minuteLegal_minuteWord (m : BitVec 6) : minuteLegal (minuteWord m) := by
  right
  rw [minuteWord, BitVec.toNat_setWidth]
  omega

theorem groupCursorNext_minuteLegal (p : StationParams) (g : GroupCursor) (t : TimeReading)
    (h : minuteLegal g.latestMinute) : minuteLegal (groupCursorNext p g t).latestMinute := by
  unfold groupCursorNext
  split
  · exact minuteLegal_minuteWord t.min
  · split <;> exact h

/-- `ps_state` and `state` advance together in the phases of the 0A groups; the 2A group brings `state` back to 0 and
leaves `ps_state`, which is 0 by then (rules R126, R130). -/
theorem groupCursorNext_aligned (p : StationParams) (g : GroupCursor) (t : TimeReading) (h : g.Aligned) :
    (groupCursorNext p g t).Aligned := by
  unfold groupCursorNext
  split
  · exact h
  · unfold GroupCursor.Aligned at *
    split
    · next hname =>
      change (g.psState + 1).val = if (g.state + 1).val < 4 then (g.state + 1).val else 0
      rw [if_pos hname] at h
      simp only [Fin.val_add, Fin.val_one]
      split <;> omega
    · next htext =>
      change g.psState.val = if (g.state + 1).val < 4 then (g.state + 1).val else 0
      rw [if_neg htext] at h
      simp only [Fin.val_add, Fin.val_one]
      split <;> omega

/-- A new frame is whole, and `SNAP` and the cursors are NEXT_GROUP's (rules R49, R120, R151). -/
theorem refill_inv {s : State} (h : s.Inv) : (s.refill hw).Inv := by
  unfold State.refill
  split
  · obtain ⟨hparams, -, hminute, haligned, -, hphase, ds, hring⟩ := h
    exact ⟨hparams, hparams, groupCursorNext_minuteLegal _ _ _ hminute, groupCursorNext_aligned _ _ _ haligned,
      fun _ => ⟨_, rfl⟩, hphase, ds, hring.of_synth rfl rfl rfl rfl⟩
  · exact h

/-- NEXT_BIT keeps the invariant at the end of a bit's span. `sample_count` falls from 192 to 0, which are both in step
with the phase (rules R151, R156). -/
theorem nextBit_inv {s : State} (h : s.Inv) (hspan : s.synth.sampleCount.val = 192) : (s.nextBit hw).Inv := by
  have hwhole : FrameWhole hw (s.nextBit hw).bits :=
    (refill_inv h).frame fun hend => absurd (refill_bitPos_lt hw s) (by rw [hend]; decide)
  have hphase : (s.nextBit hw).synth.phase.val = 0 := by
    change (s.refill hw).synth.phase.val = 0
    rw [refill_phase, h.phase, hspan]
  obtain ⟨hparams, hsnap, hminute, haligned, -, -, -⟩ := refill_inv h
  obtain ⟨ds, hring⟩ := h.ring
  exact ⟨hparams, hsnap, hminute, haligned, fun _ => hwhole, hphase, _, ringHolds_nextBit hring hspan (by decide)⟩

/-- After step 1 of SAMPLE the invariant holds and a sample of the bit is left to return (rule R150). -/
theorem loadBit_inv {s : State} (h : s.Inv) : (s.loadBit hw).Inv ∧ (s.loadBit hw).synth.sampleCount.val < 192 := by
  by_cases hlt : s.synth.sampleCount.val < 192
  · rw [loadBit_of_lt s hlt]
    exact ⟨h, hlt⟩
  · have hspan : s.synth.sampleCount.val = 192 := by omega
    rw [loadBit_of_boundary s hspan]
    exact ⟨nextBit_inv h hspan, show 0 < 192 by decide⟩

theorem emitSample_inv {s : State} (h : s.Inv) (hcount : s.synth.sampleCount.val < 192) (y : Sample) :
    (s.emitSample hw y).Inv := by
  obtain ⟨hparams, hsnap, hminute, haligned, hframe, hphase, ds, hring⟩ := h
  refine ⟨hparams, hsnap, hminute, haligned, hframe, ?_, ds, ringHolds_emitSample hring hcount (by decide) y⟩
  change (s.synth.phase + 1).val = _
  rw [emitSample_sampleCount hw s y hcount, Fin.val_add, hphase]
  exact Nat.mod_add_mod _ _ _

theorem sample_inv {s : State} (h : s.Inv) : (s.sample hw).Inv := by
  obtain ⟨hload, hcount⟩ := loadBit_inv h
  rw [sample_eq_emitSample]
  exact emitSample_inv hload hcount _

theorem produce_inv (n : Nat) {s : State} (h : s.Inv) : (s.produce hw n).Inv := by
  induction n generalizing s with
  | zero => exact h
  | succ n ih => exact ih (sample_inv h)

/-- Every operation that a port selects keeps the invariant. A micro-operation run on its own need not: READ_OUT without
the count takes the ring out of step. -/
theorem exec_keeps_inv (i : Instr) (s t : State) (hi : i.isMicro = false) (hs : s.Inv) (h : exec i s = .next t) :
    t.Inv := by
  rcases operation_kinds i with hc | rfl | rfl | ⟨n, rfl⟩ | hmicro
  · exact hs.of_same (command_frame i s t hc h).1 (command_keeps_params_wf i s t hc h hs.params)
  · cases h; exact resetHardware_inv s
  · cases h; exact sample_inv hs
  · cases h; exact produce_inv n hs
  · rw [hi] at hmicro; cases hmicro

/-- Settles O57: presenting a word changes the inputs alone, and the operation it selects keeps the invariant. -/
theorem stepKeepsInvariant : Obligations.StepKeepsInvariant := by
  intro s t hs h
  obtain ⟨hcontrol, hsynth⟩ := present_frame s
  have hpresent : s.present.2.Inv := hs.of_same hsynth (by rw [hcontrol.params]; exact hs.params)
  obtain rfl | ⟨i, hi, hexec⟩ := step_cases s t h
  · exact hpresent
  · exact exec_keeps_inv i _ t hi hpresent hexec

end Sys2Proof.Machine
end

section
/-! Proof of the statement about what falls between the samples of a PRODUCE (rules R48, R158). -/
namespace Sys2Proof.Machine
open Sys2Proof

/-- A step at an instant whose word selects an operation runs it, the reading driven at the instant on the time port and
what is left of the instant still pending (rules R44, R48). -/
theorem step_of_pending {s : State} {i : Instant} {rest more : List Instant} {w : PortWord} {op : Instr}
    (hp : s.pending = i :: rest) (hnext : i.next = (some w, more)) (hdecode : decode w = .ok op) :
    step s = exec op { s with timePort := i.time.getD s.timePort, pending := more ++ rest } := by
  simp only [step, present_cons s i rest hp, hnext, hdecode]

/-- An event that is a command presents that command and nothing more. -/
theorem next_of_command_event (e : Between) (w : CmdWord) (hr : e.reset = false) (hc : e.control = some w) :
    e.instant.next = (some (.control w), []) := by
  simp [Instant.next, hr, hc]

theorem decodeCmd_isCommand (w : CmdWord) : (decodeCmd w).isCommand = true := by
  unfold decodeCmd
  split <;> rfl

/-- Settles O59: the first step is the piece of the PRODUCE before the event, which leaves `pending` alone; the second
is the event's command, which does too; the third is the piece after it. -/
theorem commandFallsBetweenSamplesOfProduce : Obligations.CommandFallsBetweenSamplesOfProduce := by
  intro s i rest n e later w hp hir hic his hle her hec
  obtain ⟨t, ht⟩ := exec_completes (.produce e.after) { s with
    timePort := i.time.getD s.timePort
    pending := e.instant :: Instant.ofSynth (.produce (n - e.after) later) :: rest }
  have htp : t.pending = e.instant :: Instant.ofSynth (.produce (n - e.after) later) :: rest := by
    cases ht; exact State.produce_pending hw e.after _
  obtain ⟨u, hu⟩ := exec_completes (decodeCmd w) { t with
    timePort := e.time.getD t.timePort
    pending := Instant.ofSynth (.produce (n - e.after) later) :: rest }
  have hup : u.pending = Instant.ofSynth (.produce (n - e.after) later) :: rest :=
    (command_frame _ _ _ (decodeCmd_isCommand w) hu).2.pending
  refine ⟨t, u, ht, ?_, hu, ?_, ?_⟩
  · have hnext := next_of_produce_event i n e later hir his hic
    rw [Nat.min_eq_left hle] at hnext
    exact (step_of_pending hp hnext rfl).trans ht
  · exact (step_of_pending htp (next_of_command_event e w her hec) rfl).trans hu
  · rintro rfl
    exact step_of_pending hup (next_of_produce _ _ rfl rfl rfl) rfl

end Sys2Proof.Machine
end

section
/-! Proofs of the statements about the scheduler's output: how EMIT_FRAME lays out `BITS`, and what one pass of AF
emissions transmits (rules R62, R127, R135). -/
namespace Sys2Proof.Machine
open Sys2Proof

/-! ### The frame -/

/-- The data word `blk[i]` of a group (rule R60). -/
def dataWord (b : Blocks) : Fin 4 → Block
  | 0 => b.b0
  | 1 => b.b1
  | 2 => b.b2
  | 3 => b.b3

/-- Block `i` of the frame: 26 bits from `26 * i` on, the data word and then its checkword, most significant first. -/
theorem frameBits_block (c : Cfg) (b : Blocks) (i : Fin 4) (k : Nat) (hk : k < 26) :
    (frameBits c b).getMsbD (26 * i.val + k) = (dataWord b i ++ checkword c i (dataWord b i)).getMsbD k := by
  unfold frameBits
  match i with
  | 0 | 1 | 2 | 3 =>
    by_cases hdata : k < 16 <;>
      simp (disch := omega) only [BitVec.getMsbD_append, dataWord, if_pos, if_neg] <;>
      congr 1 <;> omega

/-- Settles O28: a block of the frame is its data bits followed by its check bits, and bit `n - 1 - j` of an `n`-bit
word is its bit `j` from the top. -/
theorem emitFrameLaysOutBlocks : Obligations.EmitFrameLaysOutBlocks := by
  intro b s
  refine ⟨frameBits hw b, rfl, fun i data check h => ?_⟩
  have hwords : (data, check) = (dataWord b i, checkword hw i (dataWord b i)) := by
    rw [h]
    fin_cases i <;> rfl
  obtain ⟨rfl, rfl⟩ := Prod.mk.inj hwords
  refine ⟨fun j hj => ?_, fun j hj => ?_⟩
  · rw [frameBits_block hw b i j (by omega), BitVec.getMsbD_append, if_neg (by omega)]
    simp [BitVec.getMsbD, hj]
  · rw [Nat.add_assoc, frameBits_block hw b i (16 + j) (by omega), BitVec.getMsbD_append, if_pos (by omega)]
    simp [BitVec.getMsbD, hj]

/-! ### One pass of AF emissions -/

/-- The two bytes of an AF field, high byte first (rule R41). -/
def afBytes (w : Block) : List Byte := [w.extractLsb' 8 8, w.extractLsb' 0 8]

@[simp] theorem afBytes_append (hi lo : Byte) : afBytes (hi ++ lo) = [hi, lo] := by
  have hhi : (hi ++ lo).extractLsb' 8 8 = hi := BitVec.extractLsb'_append_eq_left
  have hlo : (hi ++ lo).extractLsb' 0 8 = lo := BitVec.extractLsb'_append_eq_right
  exact congrArg₂ (fun x y => [x, y]) hhi hlo

theorem afPass_eq (c : Cfg) (pool : List Byte) :
    afPass c pool = (List.range (afEmissions pool.length)).flatMap fun e => afBytes (afWord c pool (Fin.ofNat 13 e)) :=
  rfl

/-- Bytes written in consecutive pairs make up the list. -/
theorem flatMap_range_pairs (m : Nat) (f : Nat → List Byte) (l : List Byte) (hlen : l.length = 2 * m)
    (hf : ∀ e, e < m → f e = [afCode l (2 * e), afCode l (2 * e + 1)]) : (List.range m).flatMap f = l := by
  induction m generalizing f l with
  | zero => exact (List.eq_nil_of_length_eq_zero hlen).symm
  | succ m ih =>
    match l, hlen with
    | x :: y :: l, hlen =>
      have htail : (List.range m).flatMap (fun e => f (e + 1)) = l :=
        ih _ l (by simpa [Nat.mul_add] using hlen) fun e he => hf (e + 1) (by omega)
      rw [List.range_succ_eq_map, List.flatMap_cons, hf 0 (by omega), List.flatMap_map, htail]
      rfl

/-- What a pass is to transmit: the count code, the codes in order, and a filler after an even number of them. -/
def passBytes (c : Cfg) (pool : List Byte) : List Byte :=
  BitVec.ofNat 8 (c.afCountBase + pool.length) :: pool ++ (if pool.length % 2 = 0 then [c.afFiller] else [])

theorem passBytes_length (c : Cfg) (pool : List Byte) : (passBytes c pool).length = 2 * afEmissions pool.length := by
  simp only [passBytes, afEmissions]
  split <;> simp <;> omega

theorem passBytes_count (c : Cfg) (pool : List Byte) :
    afCode (passBytes c pool) 0 = BitVec.ofNat 8 (c.afCountBase + pool.length) := rfl

theorem passBytes_code (c : Cfg) (pool : List Byte) (i : Nat) (hi : i < pool.length) :
    afCode (passBytes c pool) (i + 1) = afCode pool i :=
  List.getD_append _ _ _ (i + 1) (Nat.succ_lt_succ hi)

theorem passBytes_filler (c : Cfg) (pool : List Byte) (heven : pool.length % 2 = 0) :
    afCode (passBytes c pool) (pool.length + 1) = c.afFiller := by
  simp [passBytes, afCode, heven]

/-- Emission `e` transmits bytes `2 * e` and `2 * e + 1` of the pass (rules R73, R127). -/
theorem afBytes_afWord (c : Cfg) (pool : List Byte) (e : Nat) (hpool : 1 ≤ pool.length) (hmax : pool.length ≤ 25)
    (he : e < afEmissions pool.length) :
    afBytes (afWord c pool (Fin.ofNat 13 e)) =
      [afCode (passBytes c pool) (2 * e), afCode (passBytes c pool) (2 * e + 1)] := by
  have hcount : afEmissions pool.length = pool.length / 2 + 1 := rfl
  have hcursor : afEmission pool.length (Fin.ofNat 13 e) = e := by
    have hval : (Fin.ofNat 13 e).val = e := Nat.mod_eq_of_lt (by omega)
    rw [afEmission, hval, if_pos he]
  simp only [afWord, hcursor, if_neg (show pool.length ≠ 0 by omega)]
  match e with
  | 0 =>
    rw [if_pos rfl, afBytes_append, passBytes_count, passBytes_code c pool 0 hpool]
  | e + 1 =>
    have hfirst : afCode (passBytes c pool) (2 * (e + 1)) = afCode pool (2 * (e + 1) - 1) :=
      passBytes_code c pool (2 * e + 1) (by omega)
    rw [if_neg (Nat.succ_ne_zero e), hfirst]
    split
    · next hpair => rw [afBytes_append, passBytes_code c pool (2 * (e + 1)) hpair]
    · next hlast =>
      rw [afBytes_append, show 2 * (e + 1) = pool.length by omega, passBytes_filler c pool (by omega)]

/-- Settles O36: the emissions of a pass transmit its bytes two by two (rule R127). -/
theorem afPassTransmitsWholePool : Obligations.AfPassTransmitsWholePool := by
  intro pool hpool hmax
  rw [afPass_eq]
  exact flatMap_range_pairs _ _ (passBytes hw pool) (passBytes_length hw pool) fun e he =>
    afBytes_afWord hw pool e hpool hmax he

end Sys2Proof.Machine
end

section
/-! Proofs of the statements about SAMPLE and the control port: when a SAMPLE renders a group, and that within a group a
command and a SAMPLE commute (rules R49, R51, R52, R120). -/
namespace Sys2Proof.Machine
open Sys2Proof

/-! ### Rendering a group -/

/-- A SAMPLE that needs no new frame leaves the scheduler's registers alone (rules R52, R120). -/
theorem loadBit_of_midGroup (s : State) (h : s.midGroup) :
    (s.loadBit hw).snap = s.snap ∧ (s.loadBit hw).cursor = s.cursor ∧ (s.loadBit hw).bits = s.bits := by
  by_cases hspan : s.synth.sampleCount.val < 192
  · rw [loadBit_of_lt s hspan]
    exact ⟨rfl, rfl, rfl⟩
  · rw [loadBit_of_boundary s (by omega), State.nextBit, refill_of_lt hw s (h.resolve_left hspan)]
    exact ⟨rfl, rfl, rfl⟩

/-- A SAMPLE that needs a new frame writes the scheduler's registers as NEXT_GROUP does (rules R52, R120). -/
theorem loadBit_of_not_midGroup (s : State) (h : ¬ s.midGroup) :
    (s.loadBit hw).snap = (s.nextGroup hw).snap ∧ (s.loadBit hw).cursor = (s.nextGroup hw).cursor ∧
      (s.loadBit hw).bits = (s.nextGroup hw).bits := by
  obtain ⟨hspan, hframe⟩ := not_or.mp h
  rw [loadBit_of_boundary s (by omega), State.nextBit, refill_of_exhausted hw s (by omega)]
  exact ⟨rfl, rfl, rfl⟩

/-- Settles O51: SAMPLE writes `SNAP`, GroupCursor and `BITS` in its step 1 alone, by NEXT_GROUP or not at all. -/
theorem groupRenderedOnlyWhenFrameExhausted : Obligations.GroupRenderedOnlyWhenFrameExhausted := fun s =>
  ⟨s.sample hw, rfl, loadBit_of_midGroup s, fun h => ⟨s.nextGroup hw, rfl, loadBit_of_not_midGroup s h⟩⟩

/-! ### A command and a SAMPLE commute -/

/-- The three parts of the state make it up. -/
theorem eq_of_same {s t : State} (hcontrol : SameControl s t) (hsynth : SameSynthesis s t) (hinputs : SameInputs s t) :
    t = s := by
  obtain ⟨hparams, hsuppress, hstatus, hhist⟩ := hcontrol
  obtain ⟨hsnap, hcursor, hbits, hsynth, hout⟩ := hsynth
  obtain ⟨hpending, htime, hresult⟩ := hinputs
  cases s
  cases t
  simp_all only

theorem accept_sameControl {s s' : State} (h : SameControl s s') (p : StationParams) :
    SameControl (s.accept p) (s'.accept p) := by
  obtain ⟨-, hsuppress, -, hhist⟩ := h
  exact ⟨rfl, hsuppress, rfl, by simp [hsuppress, hhist]⟩

theorem reject_sameControl {s s' : State} (h : SameControl s s') (why : CmdStatus) :
    SameControl (s.reject why) (s'.reject why) := by
  obtain ⟨hparams, hsuppress, -, hhist⟩ := h
  exact ⟨hparams, hsuppress, rfl, hhist⟩

theorem appendAf_sameControl {s s' : State} (h : SameControl s s') (code : Byte) :
    SameControl (s.appendAf code) (s'.appendAf code) := by
  unfold State.appendAf
  rw [h.params]
  split
  · exact reject_sameControl h _
  · exact accept_sameControl h _

/-- What a command writes depends on the control side alone (rules R100, R215). -/
theorem command_sameControl {i : Instr} {s s' t t' : State} (hc : i.isCommand = true) (hs : SameControl s s')
    (h : exec i s = .next t) (h' : exec i s' = .next t') : SameControl t t' := by
  have hparams := hs.params
  cases i with
  | setPi | setPs | setRt | setTa | setPty | clearAf =>
    cases h
    cases h'
    rw [hparams]
    exact accept_sameControl hs _
  | addAfHz | addAfCode =>
    cases h
    cases h'
    split
    · exact reject_sameControl hs _
    · exact appendAf_sameControl hs _
  | setSuppress =>
    cases h
    cases h'
    exact ⟨hparams, rfl, rfl, hs.histReqs⟩
  | cmdReserved =>
    cases h
    cases h'
    exact reject_sameControl hs _
  | _ => cases hc

/-- Within a group, loading a bit depends on the synthesis side alone: no new frame reads StationParams (rule R49). -/
theorem loadBit_sameSynthesis {s u : State} (h : SameSynthesis s u) (hmid : s.midGroup) :
    SameSynthesis (s.loadBit hw) (u.loadBit hw) := by
  have hsynth := h.synth
  by_cases hspan : s.synth.sampleCount.val < 192
  · rwa [loadBit_of_lt s hspan, loadBit_of_lt u (by rwa [hsynth])]
  · have hleft := hmid.resolve_left hspan
    rw [loadBit_of_boundary s (by omega), loadBit_of_boundary u (by rw [hsynth]; omega), State.nextBit, State.nextBit,
      refill_of_lt hw s hleft, refill_of_lt hw u (by rwa [hsynth])]
    obtain ⟨hsnap, hcursor, hbits, -, hout⟩ := h
    exact ⟨hsnap, hcursor, hbits, by simp [State.bitAt, hsynth, hbits], hout⟩

/-- The rest of SAMPLE depends on the synthesis side alone. -/
theorem emitSample_sameSynthesis {s u : State} (h : SameSynthesis s u) (c : Cfg) (y : Sample) :
    SameSynthesis (s.emitSample c y) (u.emitSample c y) := by
  obtain ⟨hsnap, hcursor, hbits, hsynth, hout⟩ := h
  exact ⟨hsnap, hcursor, hbits, by simp [State.emitSample, hsynth], by simp [State.emitSample, hout]⟩

/-- Within a group a SAMPLE depends on the synthesis side alone (rules R49, R51). -/
theorem sample_sameSynthesis {s u : State} (h : SameSynthesis s u) (hmid : s.midGroup) :
    SameSynthesis (s.sample hw) (u.sample hw) := by
  have hload := loadBit_sameSynthesis h hmid
  have hvalue : u.sampleValue hw = s.sampleValue hw := by
    simp only [State.sampleValue, State.envelopeOut, hload.synth]
  rw [sample_eq_emitSample, sample_eq_emitSample, hvalue]
  exact emitSample_sameSynthesis hload hw _

/-- Settles O53: a command depends on the control side, which a SAMPLE leaves alone, and within a group a SAMPLE depends
on the synthesis side, which a command leaves alone. So both orders agree on each part of the state. -/
theorem commandInvisibleWithinGroup : Obligations.CommandInvisibleWithinGroup := by
  intro i s hc hmid
  obtain ⟨u, hu⟩ := exec_completes i s
  obtain ⟨t, ht⟩ := exec_completes i (s.sample hw)
  obtain ⟨hsynth, hinputs⟩ := command_frame i s u hc hu
  obtain ⟨hsynth', hinputs'⟩ := command_frame i (s.sample hw) t hc ht
  have hcontrol := command_sameControl hc (sample_frame hw s).control hu ht
  have horders : u.sample hw = t := by
    refine eq_of_same ?_ ?_ ?_
    · obtain ⟨hparams, hsuppress, hstatus, hhist⟩ := hcontrol
      exact ⟨by simp [hparams], by simp [hsuppress], by simp [hstatus], by simp [hhist]⟩
    · obtain ⟨hsnap, hcursor, hbits, hsyn, hout⟩ := sample_sameSynthesis hsynth hmid
      obtain ⟨hsnap', hcursor', hbits', hsyn', hout'⟩ := hsynth'
      exact ⟨hsnap.trans hsnap'.symm, hcursor.trans hcursor'.symm, hbits.trans hbits'.symm, hsyn.trans hsyn'.symm,
        hout.trans hout'.symm⟩
    · obtain ⟨hpending, htime, hresult⟩ := hinputs
      obtain ⟨hpending', htime', hresult'⟩ := hinputs'
      exact ⟨by simp [hpending, hpending'], by simp [htime, htime'], by simp [hresult, hresult']⟩
  exact ⟨u, s.sample hw, t, hu, congrArg Host.Outcome.next horders, rfl, ht⟩

end Sys2Proof.Machine
end

section
/-! Proofs of the statements about OLA_ADD and READ_OUT on RING (rules R153, R154). -/
namespace Sys2Proof.Machine
open Sys2Proof

/-- Settles O46: the taps of an overlap-add keep the ring's size and every slot they do not fall on. -/
theorem olaAddFrame : Obligations.OlaAddFrame := fun d s =>
  ⟨rfl, overlapAdd_length hw d s.synth.inIdx hw.filterSize 0 s.synth.ring, fun k hk =>
    overlapAdd_other hw d s.synth.inIdx hw.filterSize 0 s.synth.ring k fun j _ hj => hk j (by omega)⟩

/-- Settles O47: READ_OUT's read and its write are both at `out_idx`. -/
theorem readOutTakesAndZeroesSlot : Obligations.ReadOutTakesAndZeroesSlot := fun _ => rfl

end Sys2Proof.Machine
end

section
/-! Proofs of the statements about a step: the operation that is presented, and what each form of an instant presents
(rules R48, R53, R158, R207, R231). -/
namespace Sys2Proof.Machine
open Sys2Proof

/-- Settles O5: the step's branch for a word that decodes. -/
theorem stepRunsDecodedOperation : Obligations.StepRunsDecodedOperation := by
  intro s s' w i hpresent hdecode
  simp only [step, hpresent, hdecode]

/-- A step at an instant that presents no word only drives the time port (rules R219, R231). -/
theorem step_of_silent {s : State} {i : Instant} {rest more : List Instant} (hp : s.pending = i :: rest)
    (hnext : i.next = (none, more)) :
    step s = .next { s with timePort := i.time.getD s.timePort, pending := more ++ rest } := by
  simp only [step, present_cons s i rest hp, hnext]

/-! ### What each form of an instant presents -/

section
variable {i : Instant} {w : CmdWord} (hr : i.reset = false)
include hr

theorem next_of_idle (hs : i.synth = .idle) (hc : i.control = none) : i.next = (none, []) := by
  simp [Instant.next, hr, hs, hc]

theorem next_of_command (hs : i.synth = .idle) (hc : i.control = some w) : i.next = (some (.control w), []) := by
  simp [Instant.next, hr, hs, hc]

theorem next_of_sample (hs : i.synth = .sample) (hc : i.control = none) : i.next = (some (.synth 1#1), []) := by
  simp [Instant.next, hr, hs, hc]

theorem next_of_sample_command (hs : i.synth = .sample) (hc : i.control = some w) :
    i.next = (some (.synth 1#1), [Instant.ofCommand w]) := by
  simp [Instant.next, hr, hs, hc]

theorem next_of_produce_zero_command {between : List Between} (hs : i.synth = .produce 0 between)
    (hc : i.control = some w) :
    i.next = (some (.produce 0), Instant.ofCommand w :: between.map Between.instant) := by
  simp [Instant.next, hr, hs, hc]

theorem next_of_produce_command {n : Nat} {between : List Between} (hs : i.synth = .produce (n + 1) between)
    (hc : i.control = some w) :
    i.next = (some (.synth 1#1), [Instant.ofCommand w, Instant.ofSynth (.produce n (sampleNearer between))]) := by
  simp [Instant.next, hr, hs, hc]

end

/-! ### The step at each form of an instant -/

theorem step_of_reset {s : State} {i : Instant} {rest : List Instant} (hp : s.pending = i :: rest)
    (hr : i.reset = true) :
    step s = exec .reset { s with
      timePort := i.time.getD s.timePort
      pending := i.synth.between.map Between.instant ++ rest } :=
  step_of_pending hp (next_of_reset i hr) rfl

/-- The step after an instant that left a command pending first runs that command. -/
theorem step_of_ofCommand {s : State} {w : CmdWord} {rest : List Instant}
    (hp : s.pending = Instant.ofCommand w :: rest) : step s = exec (decodeCmd w) { s with pending := rest } :=
  step_of_pending hp (next_of_command rfl rfl rfl) rfl

/-- An instant that presents a SAMPLE and leaves a command: SAMPLE keeps what is pending, so the step after it runs the
command (rule R53). -/
theorem step_sample_then_command {s : State} {i : Instant} {rest more later : List Instant} {w : CmdWord}
    (hp : s.pending = i :: rest) (hnext : i.next = (some (.synth 1#1), Instant.ofCommand w :: more))
    (hlater : more ++ rest = later) :
    ∃ t, step s = exec .sample { s with
        timePort := i.time.getD s.timePort
        pending := Instant.ofCommand w :: later } ∧
      step s = .next t ∧ step t = exec (decodeCmd w) { t with pending := later } := by
  subst hlater
  have hstep := step_of_pending hp hnext (rfl : decode (.synth 1#1) = .ok .sample)
  exact ⟨_, hstep, hstep, step_of_ofCommand (State.sample_pending hw _)⟩

/-- Settles O7: RESET is presented alone; a SAMPLE, or the first one of a PRODUCE, leaves the command for the next step.
-/
theorem sampleBeforeCommandAndResetFirst : Obligations.SampleBeforeCommandAndResetFirst := by
  intro s i rest w hp hc
  refine ⟨step_of_reset hp, fun hr hs => ?_, fun n between hr hs => ?_⟩
  · exact step_sample_then_command hp (next_of_sample_command hr hs hc) rfl
  · exact step_sample_then_command hp (next_of_produce_command hr hs hc) rfl

/-- Settles O60: each form's word decodes to its operation; PRODUCE 0 with a command does no sample, and an empty
instant presents no word. -/
theorem eachInstantPresentsItsOperation : Obligations.EachInstantPresentsItsOperation := by
  intro s i rest hp
  refine ⟨step_of_reset hp, fun hr hs hc => ?_, fun w hr hs hc => ?_, fun n hr hs hc => ?_,
    fun between w hr hs hc => ?_, fun hr hs hc => ?_⟩
  · exact step_of_pending hp (next_of_sample hr hs hc) rfl
  · exact step_of_pending hp (next_of_command hr hs hc) rfl
  · exact step_of_pending hp (next_of_produce i n hr hs hc) rfl
  · exact step_of_pending hp (next_of_produce_zero_command hr hs hc) rfl
  · exact step_of_silent hp (next_of_idle hr hs hc)

end Sys2Proof.Machine
end

section
/-! Proofs of the statements about the decoder and the encoder (rules R64, R65, R76, R78). -/
namespace Sys2Proof.Machine
open Sys2Proof

/-! ### What the decoder reads -/

theorem reservedOp_iff (op : BitVec 4) : reservedOp op = true ↔ op.toNat = 0 ∨ 10 ≤ op.toNat := by
  simp [reservedOp, BitVec.toNat_eq]

/-- A reserved opcode is none of the nine assigned ones, so it falls to the decoder's last arm (rule R65). -/
theorem decodeCmd_of_reserved (w : CmdWord) (h : reservedOp w.op = true) : decodeCmd w = .cmdReserved w.op := by
  rw [reservedOp_iff] at h
  unfold decodeCmd
  split
  case h_10 => rfl
  all_goals omega

/-- The decoder's last arm catches reserved opcodes only (rules R65, R76a). -/
theorem decodeCmd_wf (w : CmdWord) : (decodeCmd w).wf = true := by
  unfold decodeCmd
  split
  case h_10 =>
    simp only [imp_false] at *
    exact (reservedOp_iff w.op).mpr (by omega)
  all_goals rfl

/-- A `uop` word selects a micro-operation or nothing: the table of sixteen indices and seven kinds of operand (rule
R78). -/
theorem decodeUop_isMicro (u : UopWord) (i : Instr) (h : decodeUop u = .ok i) : i.isMicro = true := by
  obtain ⟨⟨index⟩, operand⟩ := u
  fin_cases index <;> cases operand <;> cases h <;> rfl

theorem isMicro_wf (i : Instr) (h : i.isMicro = true) : i.wf = true := by
  cases i with
  | cmdReserved op => cases h
  | _ => rfl

/-- Settles O2, port by port: the control port by `decodeCmd_wf`, a `uop` index by what it can select. -/
theorem decodedOperationsAreWellFormed : Obligations.DecodedOperationsAreWellFormed := by
  intro w i h
  cases w with
  | control w => cases h; exact decodeCmd_wf w
  | synth strobe => simp only [decode] at h; split at h <;> cases h; rfl
  | produce n => cases h; rfl
  | rst strobe => simp only [decode] at h; split at h <;> cases h; rfl
  | uop u => exact isMicro_wf i (decodeUop_isMicro u i h)

/-! ### Decode of encode -/

/-- Settles O1. A command's operands are read back from the lanes they were laid in; a strobe and a `uop` index carry
theirs beside them. -/
theorem decodeOfEncode : Obligations.DecodeOfEncode := by
  intro i hwf
  have hlane (op : BitVec 4) (b : Byte) : CmdWord.lane ⟨op, 0, toLanes [b]⟩ 0 = b :=
    lane_toLanes op 0 [b] 0 (by decide)
  cases i with
  | setPi pi => exact congrArg (Except.ok ∘ Instr.setPi) (low16_bytes16 _ _ pi)
  | setPs len chars => exact congrArg (Except.ok ∘ Instr.setPs len) (chars_toLanes _ _ 8 (by decide) chars)
  | setRt len chars => exact congrArg (Except.ok ∘ Instr.setRt len) (chars_toLanes _ _ 64 (by decide) chars)
  | setTa ta => exact congrArg (Except.ok ∘ Instr.setTa) (bit0_byteOfBit _ _ ta)
  | setPty pty => exact congrArg (Except.ok ∘ Instr.setPty) (hlane _ pty)
  | addAfHz hz => exact congrArg (Except.ok ∘ Instr.addAfHz) (low32_bytes32 _ _ hz)
  | addAfCode code => exact congrArg (Except.ok ∘ Instr.addAfCode) (hlane _ code)
  | setSuppress on => exact congrArg (Except.ok ∘ Instr.setSuppress) (bit0_byteOfBit _ _ on)
  | cmdReserved op => exact congrArg Except.ok (decodeCmd_of_reserved ⟨op, 0, toLanes []⟩ hwf)
  | clearAf | sample | produce | reset => rfl
  | crc10 | mhzToCode | nextGroup | group4A | group0A | group2A | afBlock | emitFrame | nextBit | olaAdd | readOut
  | modulate => rfl

/-! ### The opcode map -/

theorem low16_eq_lanes (op : BitVec 4) (len : BitVec 7) (data : Vector Byte 64) :
    CmdWord.low16 ⟨op, len, data⟩ = data[1] ++ data[0] := by
  simp [CmdWord.low16, lane_eq_get]

theorem low32_eq_lanes (op : BitVec 4) (len : BitVec 7) (data : Vector Byte 64) :
    CmdWord.low32 ⟨op, len, data⟩ = data[3] ++ data[2] ++ data[1] ++ data[0] := by
  simp [CmdWord.low32, lane_eq_get]

theorem bit0_eq_lane (op : BitVec 4) (len : BitVec 7) (data : Vector Byte 64) :
    CmdWord.bit0 ⟨op, len, data⟩ = data[0].getLsbD 0 := by
  simp [CmdWord.bit0, lane_eq_get]

/-- Character `k` stands in lane `k` (rule R64). -/
theorem chars_getElem (op : BitVec 4) (len : BitVec 7) (data : Vector Byte 64) (n k : Nat) (hn : n ≤ 64)
    (hk : k < n) : (CmdWord.chars n ⟨op, len, data⟩)[k] = data[k] := by
  rw [CmdWord.chars, Vector.getElem_ofFn, lane_eq_get op len data k (by omega)]

/-- Settles O3, opcode by opcode: the operand read from the lanes, and the last arm for the reserved opcodes. -/
theorem commandOpcodeMap : Obligations.CommandOpcodeMap := by
  intro len data
  have hlane (op : BitVec 4) : CmdWord.lane ⟨op, len, data⟩ 0 = data[0] := lane_eq_get op len data 0 (by decide)
  have htext : CmdWord.chars 64 ⟨0x3, len, data⟩ = data :=
    Vector.ext fun k hk => chars_getElem _ _ _ 64 k (by decide) hk
  refine ⟨congrArg (Except.ok ∘ Instr.setPi) (low16_eq_lanes _ _ _),
    ⟨_, rfl, fun k => chars_getElem _ _ _ 8 k.val (by decide) k.isLt⟩,
    congrArg (Except.ok ∘ Instr.setRt len) htext,
    congrArg (Except.ok ∘ Instr.setTa) (bit0_eq_lane _ _ _),
    congrArg (Except.ok ∘ Instr.setPty) (hlane _),
    congrArg (Except.ok ∘ Instr.addAfHz) (low32_eq_lanes _ _ _),
    congrArg (Except.ok ∘ Instr.addAfCode) (hlane _), rfl,
    congrArg (Except.ok ∘ Instr.setSuppress) (bit0_eq_lane _ _ _), fun op hop => ?_⟩
  have hreserved : reservedOp op = true := (reservedOp_iff op).mpr (hop.imp_left (congrArg BitVec.toNat))
  exact congrArg Except.ok (decodeCmd_of_reserved ⟨op, len, data⟩ hreserved)

/-- Settles O4, each word by evaluating the decoder on it. -/
theorem sampleWordsDecode : Obligations.SampleWordsDecode :=
  ⟨by decide, by decide, by decide, rfl, rfl, rfl, rfl⟩

/-! ### The frequency codec -/

/-- Settles O24: the code is the number of 100 kHz steps above 87.5 MHz (rules R72, R106). -/
theorem mhzToCodeInvertsFrequency : Obligations.MhzToCodeInvertsFrequency := by
  intro hz s
  refine ⟨mhzToCode hz, rfl, mhzToCode_invalid hz, fun hlo hhi hstep => ?_⟩
  have hcode := mhzToCode_valid hz hlo hhi hstep
  omega

end Sys2Proof.Machine
end

section
/-! Proofs of the statements about the group formats (rules R68 to R73): the words of the 0A, 2A and 4A groups as their
fields one after the other, the AF field, and the group NEXT_GROUP emits in each phase. -/
namespace Sys2Proof.Machine
open Sys2Proof

/-! ### Words as their fields

Fields one after the other are the fields shifted to their places and or-ed
(`BitVec.setWidth_append_eq_shiftLeft_setWidth_or`), which is how the rules compute a block. -/

/-- A field that reaches the top of a word is the word shifted down to it. -/
theorem setWidth_extractLsb'_of_top {n : Nat} (w start len : Nat) (v : BitVec n) (h : n ≤ start + len) :
    (v.extractLsb' start len).setWidth w = (v >>> start).setWidth w := by
  apply BitVec.eq_of_getLsbD_eq
  intro i _
  rw [BitVec.getLsbD_setWidth, BitVec.getLsbD_setWidth, BitVec.getLsbD_extractLsb', BitVec.getLsbD_ushiftRight]
  by_cases hlen : i < len
  · simp [hlen]
  · simp [hlen, BitVec.getLsbD_of_ge v (start + i) (by omega)]

/-- A low field shifted to the top of a word is the whole word shifted there: what lies above the field falls off. -/
theorem shiftLeft_extractLsb'_of_top {n : Nat} (w len k : Nat) (v : BitVec n) (h : w ≤ len + k) :
    (v.extractLsb' 0 len).setWidth w <<< k = v.setWidth w <<< k := by
  apply BitVec.eq_of_getLsbD_eq
  intro i _
  rw [BitVec.getLsbD_shiftLeft, BitVec.getLsbD_shiftLeft, BitVec.getLsbD_setWidth, BitVec.getLsbD_setWidth,
    BitVec.getLsbD_extractLsb', Nat.zero_add]
  by_cases hk : i < k
  · simp [hk]
  · simp [show i - k < len by omega]

/-- Block 1 of a 0A group (rules R68, R129): type and version, PTY, TA, two bits at 0, the segment. -/
theorem withPty_psBlock1 (p : StationParams) (g : GroupCursor) :
    withPty hw p (psBlock1 hw p g) =
      0b000001#6 ++ p.pty ++ BitVec.ofBool p.ta ++ 0b00#2 ++ BitVec.ofNat 2 g.psState.val := by
  have hseg : (BitVec.ofNat 2 g.psState.val).setWidth 16 = BitVec.ofNat 16 g.psState.val :=
    BitVec.setWidth_ofNat_of_le_of_lt (by decide) g.psState.isLt
  rw [← BitVec.setWidth_eq (_ ++ BitVec.ofNat 2 g.psState.val)]
  simp only [BitVec.setWidth_append_eq_shiftLeft_setWidth_or, BitVec.shiftLeft_or_distrib, ← BitVec.shiftLeft_add]
  change 0x0400#16 ||| _ ||| _ ||| _ = 0x0400#16 ||| _ ||| _ ||| 0#16 ||| BitVec.setWidth 16 _
  rw [hseg, BitVec.or_zero]
  ac_rfl

/-- Block 1 of a 2A group (rules R69, R129): type and version, PTY, the A/B flag at 0, the segment. -/
theorem withPty_rtBlock1 (p : StationParams) (g : GroupCursor) :
    withPty hw p (rtBlock1 hw g) = 0b001001#6 ++ p.pty ++ 0b0#1 ++ BitVec.ofNat 4 g.rtState.val := by
  have hseg : (BitVec.ofNat 4 g.rtState.val).setWidth 16 = BitVec.ofNat 16 g.rtState.val :=
    BitVec.setWidth_ofNat_of_le_of_lt (by decide) g.rtState.isLt
  rw [← BitVec.setWidth_eq (_ ++ BitVec.ofNat 4 g.rtState.val),
    BitVec.setWidth_append_append_append_eq_shiftLeft_setWidth_or]
  change 0x2400#16 ||| _ ||| _ = 0x2400#16 ||| _ ||| 0#16 ||| BitVec.setWidth 16 _
  rw [hseg, BitVec.or_zero]
  ac_rfl

/-- Block 1 of a CT group (rule R70): type and version, PTY and the spare bits at 0, MJD's two top bits. -/
theorem ctBlock1_eq (t : TimeReading) : ctBlock1 hw t = 0b010001#6 ++ 0#8 ++ (mjd hw t).extractLsb' 15 2 := by
  rw [← BitVec.setWidth_eq (_ ++ (mjd hw t).extractLsb' 15 2), BitVec.setWidth_append_eq_shiftLeft_setWidth_or,
    setWidth_extractLsb'_of_top _ 15 2 _ (by decide)]
  rfl

/-- Block 2 of a CT group (rule R70): the rest of MJD, the hour's top bit. -/
theorem ctBlock2_eq (t : TimeReading) : ctBlock2 hw t = (mjd hw t).extractLsb' 0 15 ++ t.hour.extractLsb' 4 1 := by
  rw [← BitVec.setWidth_eq (_ ++ t.hour.extractLsb' 4 1), BitVec.setWidth_append_eq_shiftLeft_setWidth_or,
    shiftLeft_extractLsb'_of_top _ 15 1 _ (by decide), setWidth_extractLsb'_of_top _ 4 1 _ (by decide)]
  rfl

theorem setWidth_and_nibble (h : BitVec 5) : h.setWidth 16 &&& 0xF#16 = (h.extractLsb' 0 4).setWidth 16 := by
  revert h; decide

/-- Block 3 of a CT group (rule R70): the hour's low nibble, the minute, the offset's sign and magnitude. -/
theorem ctBlock3_eq (t : TimeReading) :
    ctBlock3 t = t.hour.extractLsb' 0 4 ++ t.min ++ BitVec.ofBool t.offNeg ++ t.offMag := by
  rw [← BitVec.setWidth_eq (_ ++ t.offMag), BitVec.setWidth_append_append_append_eq_shiftLeft_setWidth_or, ctBlock3,
    setWidth_and_nibble]

/-- Settles O32: the three blocks of the rule's expressions, each as its fields. -/
theorem group4ALaysOutClockTime : Obligations.Group4ALaysOutClockTime := fun t _ =>
  ⟨ctBlock1 hw t, ctBlock2 hw t, ctBlock3 t, rfl, ctBlock1_eq t, ctBlock2_eq t, ctBlock3_eq t⟩

/-! ### The AF field -/

section
variable {c : Cfg} {pool : List Byte} {a : Fin 13}

theorem afWord_empty (h : pool.length = 0) : afWord c pool a = c.noAfBlock := if_pos h

theorem afWord_count (hpool : 1 ≤ pool.length) (he : afEmission pool.length a = 0) :
    afWord c pool a = BitVec.ofNat 8 (c.afCountBase + pool.length) ++ afCode pool 0 := by
  unfold afWord
  rw [if_neg (by omega), if_pos he]

theorem afWord_pair (he : 1 ≤ afEmission pool.length a) (hpair : 2 * afEmission pool.length a < pool.length) :
    afWord c pool a = afCode pool (2 * afEmission pool.length a - 1) ++ afCode pool (2 * afEmission pool.length a) := by
  unfold afWord
  rw [if_neg (by omega), if_neg (by omega), if_pos hpair]

theorem afWord_last (he : 1 ≤ afEmission pool.length a) (hlast : 2 * afEmission pool.length a = pool.length) :
    afWord c pool a = afCode pool (2 * afEmission pool.length a - 1) ++ c.afFiller := by
  unfold afWord
  rw [if_neg (by omega), if_neg (by omega), if_neg (by omega)]

end

/-- Two bytes as one number, the first above the second (rule R41). -/
theorem toNat_append_bytes (hi lo : Byte) : (hi ++ lo : Block).toNat = hi.toNat * 256 + lo.toNat := by
  rw [BitVec.toNat_append, ← Nat.shiftLeft_add_eq_or_of_lt lo.isLt, Nat.shiftLeft_eq]

/-- Settles O35, form by form. The count code fits its byte because the pool holds 25 codes at most. -/
theorem afBlockForms : Obligations.AfBlockForms := by
  intro s hmax af n m e
  replace hmax : n ≤ 25 := hmax
  refine ⟨afWord hw af s.cursor.afState, afNext n s.cursor.afState, rfl, fun hn => ⟨afWord_empty hn, if_pos hn⟩,
    fun hn => afNext_val n s.cursor.afState hn hmax, fun hn he => ?_, afWord_pair, afWord_last⟩
  have hcount : (BitVec.ofNat 8 (224 + n)).toNat = 224 + n := Nat.mod_eq_of_lt (by omega)
  calc (afWord hw af s.cursor.afState).toNat
    _ = (BitVec.ofNat 8 (224 + n) ++ af.getD 0 0 : Block).toNat := congrArg BitVec.toNat (afWord_count hn he)
    _ = (224 + n) * 256 + (af.getD 0 0).toNat := by rw [toNat_append_bytes, hcount]

/-! ### The group NEXT_GROUP emits -/

theorem ctCondition_iff (t : TimeReading) (latest : BitVec 7) :
    ctCondition t latest = true ↔ t.valid = true ∧ t.min.setWidth 7 ≠ latest := by
  simp [ctCondition, minuteWord]

/-- With no valid reading or the minute unchanged there is no CT group (rules R121, R125). -/
theorem not_ctCondition {t : TimeReading} {latest : BitVec 7} (h : t.valid = false ∨ t.min.setWidth 7 = latest) :
    ¬ ctCondition t latest = true := by
  rw [ctCondition_iff]
  rintro ⟨hvalid, hmin⟩
  rcases h with h | h
  · rw [hvalid] at h; cases h
  · exact hmin h

/-- NEXT_GROUP is its group and its cursors (rule R121). -/
theorem exec_nextGroup {s : State} {b : Blocks} {g : GroupCursor}
    (hblocks : groupBlocks hw s.params s.cursor s.timePort = b)
    (hcursor : groupCursorNext s.params s.cursor s.timePort = g) :
    exec .nextGroup s = .next { s with snap := s.params, cursor := g, bits := frameBits hw b } := by
  subst hblocks hcursor; rfl

/-- Settles O29: the CT condition holds, so NEXT_GROUP takes its first branch. -/
theorem nextGroupEmitsClockTime : Obligations.NextGroupEmitsClockTime := by
  intro s hvalid hmin
  have hct := (ctCondition_iff s.timePort s.cursor.latestMinute).mpr ⟨hvalid, hmin⟩
  exact exec_nextGroup (if_pos hct) (if_pos hct)

/-- Settles O30: with no CT condition and a phase below 4 NEXT_GROUP takes its second branch. -/
theorem nextGroupEmitsProgrammeService : Obligations.NextGroupEmitsProgrammeService := by
  intro s hno hphase
  have hct := not_ctCondition hno
  exact ⟨_, _, exec_nextGroup ((if_neg hct).trans (if_pos hphase)) ((if_neg hct).trans (if_pos hphase)), rfl,
    withPty_psBlock1 s.params s.cursor, rfl, rfl, rfl⟩

/-- Settles O31: with no CT condition and phase 4 NEXT_GROUP takes its last branch; phase 4 is followed by phase 0. -/
theorem nextGroupEmitsRadioText : Obligations.NextGroupEmitsRadioText := by
  intro s hno hphase
  have hct := not_ctCondition hno
  have htext : ¬ s.cursor.state.val < 4 := by rw [hphase]; decide
  have hcursor : groupCursorNext s.params s.cursor s.timePort = { s.cursor.after2A with state := s.cursor.state + 1 } :=
    (if_neg hct).trans (if_neg htext)
  rw [hphase] at hcursor
  exact ⟨_, exec_nextGroup ((if_neg hct).trans (if_neg htext)) hcursor, rfl,
    withPty_rtBlock1 s.params s.cursor, rfl, rfl⟩

end Sys2Proof.Machine
end

section
/-! Proofs of the statements about CRC10 (rules R90 to R92): a step of the bit-serial division takes in one more
coefficient of the block, so the register is the remainder for the bits read so far. -/
namespace Sys2Proof.Machine
open Sys2Proof Polynomial

/-! ### Words as polynomials over GF(2) -/

theorem coeff_ite_X_pow (b : Bool) (i k : Nat) :
    (if b then X ^ i else 0 : (ZMod 2)[X]).coeff k = if k = i then (if b then 1 else 0) else 0 := by
  split <;> simp [coeff_X_pow]

section
variable {n : Nat}

@[simp] theorem polyOf_coeff (v : BitVec n) (k : Nat) : (polyOf v).coeff k = if v.getLsbD k then 1 else 0 := by
  simp only [polyOf, finsetSum_coeff, coeff_ite_X_pow, Finset.sum_ite_eq, Finset.mem_range]
  split
  case isTrue => rfl
  case isFalse hk => rw [BitVec.getLsbD_of_ge v k (not_lt.mp hk)]; rfl

theorem polyOf_injective : Function.Injective (polyOf (n := n)) := by
  intro v w h
  apply BitVec.eq_of_getLsbD_eq
  intro i _
  have hi := congrArg (coeff · i) h
  simp only [polyOf_coeff] at hi
  revert hi
  cases v.getLsbD i <;> cases w.getLsbD i <;> decide

theorem polyOf_xor (v w : BitVec n) : polyOf (v ^^^ w) = polyOf v + polyOf w := by
  ext k
  rw [coeff_add, polyOf_coeff, polyOf_coeff, polyOf_coeff, BitVec.getLsbD_xor]
  cases v.getLsbD k <;> cases w.getLsbD k <;> decide

theorem polyOf_zero : polyOf (0 : BitVec n) = 0 := by
  ext k
  simp

theorem degree_polyOf_lt (v : BitVec n) : (polyOf v).degree < n := by
  rw [degree_lt_iff_coeff_zero]
  intro k hk
  rw [polyOf_coeff, BitVec.getLsbD_of_ge v k hk]
  rfl

/-- The product by `x` is the left shift and, for the top bit that the shift drops, the leading power. -/
theorem X_mul_polyOf (v : BitVec (n + 1)) :
    X * polyOf v = polyOf (v <<< 1) + if v.getLsbD n then X ^ (n + 1) else 0 := by
  ext k
  rw [coeff_add, coeff_ite_X_pow, polyOf_coeff, BitVec.getLsbD_shiftLeft]
  cases k with
  | zero => simp
  | succ k =>
    rw [coeff_X_mul, polyOf_coeff]
    obtain hk | rfl | hk := lt_trichotomy k n
    · simp [hk, hk.ne]
    · simp
    · simp [BitVec.getLsbD_of_ge v k hk, hk.ne']

/-- A right shift by one place less takes in one coefficient more, at the bottom. -/
theorem polyOf_ushiftRight (v : BitVec n) (k : Nat) :
    polyOf (v >>> k) = X * polyOf (v >>> (k + 1)) + if v.getLsbD k then 1 else 0 := by
  ext i
  rw [coeff_add, polyOf_coeff, BitVec.getLsbD_ushiftRight]
  cases i with
  | zero => split <;> simp_all
  | succ i =>
    rw [coeff_X_mul, polyOf_coeff, BitVec.getLsbD_ushiftRight, show k + (i + 1) = k + 1 + i by omega]
    split <;> split <;> simp [coeff_one]

end

/-! ### The generator -/

theorem polyOf_crcPolyLow : polyOf crcPolyLow = 1 + X ^ 3 + X ^ 4 + X ^ 5 + X ^ 7 + X ^ 8 := by
  simp [polyOf, crcPolyLow, Finset.sum_range_succ]

theorem generator_eq : generator = X ^ 10 + polyOf crcPolyLow := by
  rw [polyOf_crcPolyLow, generator]
  ring

theorem generator_monic : generator.Monic := by
  rw [generator_eq]
  exact monic_X_pow_add (degree_polyOf_lt crcPolyLow)

theorem degree_generator : generator.degree = 10 := by
  have hlow : (polyOf crcPolyLow).degree < (X ^ 10 : (ZMod 2)[X]).degree :=
    (degree_polyOf_lt crcPolyLow).trans_eq (degree_X_pow 10).symm
  rw [generator_eq, degree_add_eq_left_of_degree_lt hlow, degree_X_pow]
  rfl

/-! ### The bit-serial division -/

/-- The two branches of a step as one sum (rule R91). -/
theorem polyOf_crcStep_eq_add (reg : Check) (bit : Bool) :
    polyOf (crcStep reg bit) = polyOf (reg <<< 1) + if reg.getLsbD 9 ^^ bit then polyOf crcPolyLow else 0 := by
  rw [crcStep]
  split
  · rw [polyOf_xor]
  · rw [add_zero]

/-- A step multiplies by `x`, adds the data bit as the coefficient of `x^10`, and reduces: the quotient is 1 exactly
when the polynomial constant is added. -/
theorem polyOf_crcStep (reg : Check) (bit : Bool) :
    polyOf (crcStep reg bit) = (X * polyOf reg + if bit then X ^ 10 else 0) %ₘ generator := by
  have hdeg : (polyOf (crcStep reg bit)).degree < generator.degree :=
    (degree_polyOf_lt _).trans_eq degree_generator.symm
  have hsum : polyOf (crcStep reg bit) + generator * (if reg.getLsbD 9 ^^ bit then 1 else 0) =
      X * polyOf reg + if bit then X ^ 10 else 0 := by
    have htwo : (2 : (ZMod 2)[X]) = 0 := CharTwo.two_eq_zero
    rw [polyOf_crcStep_eq_add, X_mul_polyOf, generator_eq]
    cases reg.getLsbD 9 <;> cases bit <;>
      simp only [Bool.xor_false, Bool.xor_true, Bool.not_false, Bool.not_true, Bool.false_eq_true, if_true, if_false]
    · ring
    · linear_combination polyOf crcPolyLow * htwo
    · linear_combination polyOf crcPolyLow * htwo
    · linear_combination -X ^ 10 * htwo
  exact (div_modByMonic_unique _ _ generator_monic ⟨hsum, hdeg⟩).2.symm

/-- After `j` bits the register is the remainder for the block's `j` most significant bits. -/
theorem polyOf_foldl_crcStep (block : Block) (j : Nat) (hj : j ≤ 16) :
    polyOf ((List.range j).foldl (fun reg k => crcStep reg (block.getLsbD (15 - k))) 0) =
      (polyOf (block >>> (16 - j)) * X ^ 10) %ₘ generator := by
  induction j with
  | zero =>
    have hshift : block >>> (16 - 0) = 0 := BitVec.ushiftRight_eq_zero (le_refl 16)
    rw [List.range_zero, List.foldl_nil, polyOf_zero, hshift, polyOf_zero, zero_mul, zero_modByMonic]
  | succ j ih =>
    have hplace : 16 - j = 15 - j + 1 := by omega
    rw [List.range_succ, List.foldl_append, List.foldl_cons, List.foldl_nil, polyOf_crcStep, ih (by omega),
      show 16 - (j + 1) = 15 - j by omega, polyOf_ushiftRight block (15 - j), ← hplace]
    apply modByMonic_eq_of_dvd_sub generator_monic
    set p := polyOf (block >>> (16 - j)) * X ^ 10
    have hdvd : generator ∣ X * (p %ₘ generator - p) := (dvd_modByMonic_sub p generator).mul_left X
    convert hdvd using 1
    split <;> ring

/-- CRC10 as a fold over the bit positions, most significant first (rule R91). -/
theorem crc10_eq_foldl (block : Block) :
    crc10 block = (List.range 16).foldl (fun reg k => crcStep reg (block.getLsbD (15 - k))) 0 :=
  List.foldl_map

/-- The definition of CRC10 as a remainder (rule R90). -/
theorem polyOf_crc10 (block : Block) : polyOf (crc10 block) = (polyOf block * X ^ 10) %ₘ generator := by
  rw [crc10_eq_foldl, polyOf_foldl_crcStep block 16 (le_refl 16)]
  rfl

/-- Settles O25: after all sixteen bits the register is the whole block's remainder; the corner cases evaluate. -/
theorem crc10IsPolynomialRemainder : Obligations.Crc10IsPolynomialRemainder := by
  refine ⟨polyOf_crc10, ?_, ?_, ?_, ?_, ?_, fun _ => rfl⟩ <;> decide +kernel

/-- Settles O26: CRC10 returns its value and changes nothing else, and the value is the fold over the bit positions. -/
theorem crc10ReturnsBitSerialRemainder : Obligations.Crc10ReturnsBitSerialRemainder := fun block s =>
  congrArg (fun c => Host.Outcome.next (s.returned (.crc c))) (crc10_eq_foldl block)

/-- Settles O27: a word is its polynomial, and the remainder of a sum is the sum of the remainders (rules R90, R92). -/
theorem crc10Linear : Obligations.Crc10Linear := by
  refine ⟨fun a b => polyOf_injective ?_, polyOf_injective ?_⟩
  · rw [polyOf_xor, polyOf_crc10, polyOf_crc10, polyOf_crc10, polyOf_xor, add_mul, add_modByMonic]
  · rw [polyOf_crc10, polyOf_zero, polyOf_zero, zero_mul, zero_modByMonic]

end Sys2Proof.Machine
end

section
/-! Proofs of the statements about the commands of the control port (rules R100 to R111): each command's encoding and
effect, and what all of them have in common about `hist_req` and their write frame. -/
namespace Sys2Proof.Machine
open Sys2Proof

/-! ### What every command keeps -/

/-- Settles O21: the frame that a rejection, SET_SUPPRESS and an accepted setter share (rules R100, R215). -/
theorem commandsLeaveSynthesisAlone : Obligations.CommandsLeaveSynthesisAlone := command_frame

/-- Settles O20: of the three things a command can do, only an accepted setter runs `HistReq()` (rule R110). -/
theorem histReqExactlyOnAcceptedSetters : Obligations.HistReqExactlyOnAcceptedSetters := by
  intro i s t hc h
  obtain ⟨why, hwhy, rfl⟩ | ⟨on, rfl, rfl⟩ | ⟨p, hi, rfl, -⟩ := command_cases i s t hc h
  · simp [hwhy]
  · simp
  · cases hs : s.suppressWrite <;> simp [hs, hi]

/-! ### The scalar setters -/

/-- Settles O9: the operand in two lanes, and an accepted setter of PI (rule R101). -/
theorem setPiStoresCode : Obligations.SetPiStoresCode :=
  ⟨fun _ _ => congrArg (Except.ok ∘ Instr.setPi) (low16_eq_lanes _ _ _), fun _ _ => rfl⟩

/-- Settles O12: the operand in bit 0, `ON` on the text channel, and an accepted setter of TA (rule R104). -/
theorem setTaStoresFlag : Obligations.SetTaStoresFlag :=
  ⟨fun _ _ => congrArg (Except.ok ∘ Instr.setTa) (bit0_eq_lane _ _ _),
    fun _ arg => ⟨arg == onWord, rfl, beq_iff_eq⟩, fun _ _ => rfl⟩

/-- Settles O13: the operand in lane 0, and an accepted setter of the clamped PTY (rule R105). -/
theorem setPtyClamps : Obligations.SetPtyClamps :=
  ⟨fun _ data => congrArg (Except.ok ∘ Instr.setPty) (lane_eq_get _ _ data 0 (by decide)),
    fun pty _ => ⟨clampPty pty, clampPty_toNat pty, rfl⟩⟩

/-- Settles O17: the operand in bit 0; SET_SUPPRESS is no setter of StationParams and runs no `HistReq()` (rule R109). -/
theorem setSuppressWritesFlag : Obligations.SetSuppressWritesFlag :=
  ⟨fun _ _ => congrArg (Except.ok ∘ Instr.setSuppress) (bit0_eq_lane _ _ _), fun _ _ => rfl⟩

/-! ### The text setters -/

/-- The index of a character is below the field's size, so `min(len, n)` bounds it as `len` does. -/
theorem fitText_get_min {n : Nat} (len : BitVec 7) (chars : Vector Byte n) (k : Fin n) :
    (fitText len chars).get k = if k.val < min len.toNat n then chars.get k else 0x20#8 := by
  rw [fitText_get]
  simp only [Nat.lt_min, k.isLt, and_true]

/-- Settles O10: the eight character lanes, and an accepted setter of the fitted name (rule R102). -/
theorem setPsStoresPaddedName : Obligations.SetPsStoresPaddedName :=
  ⟨fun _ _ => ⟨_, fun k => chars_getElem _ _ _ 8 k.val (by decide) k.isLt, rfl⟩,
    fun len chars _ => ⟨fitText len chars, fitText_get_min len chars, rfl⟩⟩

/-- Settles O11: all 64 lanes are characters, and an accepted setter of the fitted text (rule R103). -/
theorem setRtStoresPaddedText : Obligations.SetRtStoresPaddedText :=
  ⟨fun len _ => congrArg (Except.ok ∘ Instr.setRt len)
      (Vector.ext fun k hk => chars_getElem _ _ _ 64 k (by decide) hk),
    fun len chars _ => ⟨fitText len chars, fitText_get_min len chars, rfl⟩⟩

/-! ### The AF pool -/

/-- The code of a valid frequency is never the reject sentinel (rules R72, R106). -/
theorem mhzToCode_eq_afReject_iff (hz : BitVec 32) : mhzToCode hz = afReject ↔
    hz.toNat < 87600000 ∨ 107900000 < hz.toNat ∨ (hz.toNat - 87500000) % 100000 ≠ 0 := by
  refine ⟨fun hreject => ?_, mhzToCode_invalid hz⟩
  by_contra hvalid
  have hcode := mhzToCode_valid hz (by omega) (by omega) (by omega)
  have hzero : afReject.toNat = 0 := rfl
  rw [hreject] at hcode
  omega

/-- A valid frequency's code as a byte (rule R106). -/
theorem mhzToCode_eq_ofNat (hz : BitVec 32) (hlo : 87600000 ≤ hz.toNat) (hhi : hz.toNat ≤ 107900000)
    (hstep : (hz.toNat - 87500000) % 100000 = 0) :
    mhzToCode hz = BitVec.ofNat 8 ((hz.toNat - 87500000) / 100000) := by
  rw [← mhzToCode_valid hz hlo hhi hstep, BitVec.ofNat_toNat, BitVec.setWidth_eq]

/-- The codec is consulted first, and the pool is touched only with a code it gave (rules R107, R207b). -/
theorem exec_addAfHz (hz : BitVec 32) (s : State) : exec (.addAfHz hz) s =
    .next (if mhzToCode hz = afReject then s.reject .afInvalid else s.appendAf (mhzToCode hz)) := rfl

/-- Settles O14: the codec rejects exactly the invalid frequencies, and is consulted before the pool size (rules R106,
R107, R207b). -/
theorem addAfHzValidatesAndAppends : Obligations.AddAfHzValidatesAndAppends := by
  refine ⟨fun _ _ => congrArg (Except.ok ∘ Instr.addAfHz) (low32_eq_lanes _ _ _), fun hz s => ?_⟩
  simp only [exec_addAfHz, mhzToCode_eq_afReject_iff]
  split
  case isTrue => rfl
  case isFalse hvalid =>
    rw [mhzToCode_eq_ofNat hz (by omega) (by omega) (by omega)]
    rfl

/-- Settles O15: the operand in lane 0; the code's range is looked at before the pool size (rules R108, R207b). -/
theorem addAfCodeValidatesAndAppends : Obligations.AddAfCodeValidatesAndAppends :=
  ⟨fun _ data => congrArg (Except.ok ∘ Instr.addAfCode) (lane_eq_get _ _ data 0 (by decide)), fun _ _ => rfl⟩

/-- Settles O16: an accepted setter of the empty pool (rule R111). -/
theorem clearAfEmptiesPool : Obligations.ClearAfEmptiesPool := ⟨fun _ _ => rfl, fun _ => rfl⟩

end Sys2Proof.Machine
end

section
/-! Proofs of the statements about the scheduler: its micro-operations run on their own and in NEXT_GROUP, a new frame
requested by NEXT_BIT, the cycle of groups and the day count (rules R120, R121, R124, R126, R128, R132, R151). -/
namespace Sys2Proof.Machine
open Sys2Proof

/-! ### The micro-operations -/

/-- Settles O33: GROUP_0A's expressions with this hardware's constants (rules R126, R127). -/
theorem group0AReadsSnapshot : Obligations.Group0AReadsSnapshot := fun _ => rfl

/-- Settles O34: GROUP_2A's expressions with this hardware's constants (rule R128). -/
theorem group2AReadsSnapshot : Obligations.Group2AReadsSnapshot := fun _ => rfl

/-- Settles O38: the branch the composition takes is the branch NEXT_GROUP takes; in each branch the micro-operation's
blocks and cursor, with PTY and the phase for a non-CT group, are NEXT_GROUP's (rules R121, R129, R130). -/
theorem nextGroupComposesMicroOperations : Obligations.NextGroupComposesMicroOperations := by
  intro s ct
  by_cases hct : ct
  · have hcond := (ctCondition_iff s.timePort s.cursor.latestMinute).mpr hct
    simp only [if_pos hct]
    exact ⟨_, _, _, _, _, rfl, rfl, rfl, exec_nextGroup (if_pos hcond) (if_pos hcond)⟩
  · have hcond := mt (ctCondition_iff s.timePort s.cursor.latestMinute).mp hct
    simp only [if_neg hct]
    by_cases hphase : s.cursor.state.val < 4
    · simp only [if_pos hphase]
      exact ⟨_, _, _, _, _, rfl, rfl, rfl,
        exec_nextGroup ((if_neg hcond).trans (if_pos hphase)) ((if_neg hcond).trans (if_pos hphase))⟩
    · simp only [if_neg hphase]
      exact ⟨_, _, _, _, _, rfl, rfl, rfl,
        exec_nextGroup ((if_neg hcond).trans (if_neg hphase)) ((if_neg hcond).trans (if_neg hphase))⟩

/-! ### NEXT_BIT on an exhausted frame -/

/-- NEXT_BIT takes its bit from the refilled frame, and a refilled frame needs no refill (rule R151). -/
theorem nextBit_refill (c : Cfg) (s : State) : (s.refill c).nextBit c = s.nextBit c := by
  simp only [State.nextBit, refill_of_lt c (s.refill c) (refill_bitPos_lt c s)]

/-- Settles O44: the refill is NEXT_GROUP with `bit_pos` at 0 (rules R120, R151). -/
theorem nextBitRequestsNewFrame : Obligations.NextBitRequestsNewFrame := by
  intro s hpos
  have hrefill := refill_of_exhausted hw s (congrArg Fin.val hpos)
  refine ⟨s.nextGroup hw, s.nextBit hw, rfl, ?_, rfl, ?_⟩
  · exact congrArg Host.Outcome.next ((congrArg (State.nextBit hw) hrefill.symm).trans (nextBit_refill hw s))
  · change (s.refill hw).synth.bitPos + 1 = 1
    rw [hrefill]
    rfl

/-! ### Block 1 of a frame -/

/-- EMIT_FRAME puts block 1 where rule R62 reads it. -/
theorem frameBlock1_frameBits (c : Cfg) (b : Blocks) : frameBlock1 (frameBits c b) = b.b1 := by
  unfold frameBlock1 frameBits
  simp only [BitVec.extractLsb'_append_eq_of_le, Nat.reduceLeDiff, Nat.reduceSub]
  exact BitVec.extractLsb'_append_eq_right

/-- Block 1 of a 0A group shows type 0 and its segment (rule R68). -/
theorem psBlock1_fields {b1 : Block} {pty : BitVec 5} {ta : BitVec 1} {seg : BitVec 2}
    (h : b1 = 0b000001#6 ++ pty ++ ta ++ 0b00#2 ++ seg) : b1.extractLsb' 12 4 = 0x0 ∧ b1.extractLsb' 0 2 = seg := by
  subst h
  refine ⟨?_, BitVec.extractLsb'_append_eq_right⟩
  simp only [BitVec.extractLsb'_append_eq_of_le, Nat.reduceLeDiff, Nat.reduceSub]
  rfl

/-- Block 1 of a 2A group shows type 2 and its segment (rule R69). -/
theorem rtBlock1_fields {b1 : Block} {pty : BitVec 5} {seg : BitVec 4} (h : b1 = 0b001001#6 ++ pty ++ 0b0#1 ++ seg) :
    b1.extractLsb' 12 4 = 0x2 ∧ b1.extractLsb' 0 4 = seg := by
  subst h
  refine ⟨?_, BitVec.extractLsb'_append_eq_right⟩
  simp only [BitVec.extractLsb'_append_eq_of_le, Nat.reduceLeDiff, Nat.reduceSub]
  rfl

/-- Block 1 of a CT group shows type 4 (rule R70). -/
theorem ctBlock1_type (t : TimeReading) : (ctBlock1 hw t).extractLsb' 12 4 = 0x4 := by
  rw [ctBlock1_eq]
  simp only [BitVec.extractLsb'_append_eq_of_le, Nat.reduceLeDiff, Nat.reduceSub]
  rfl

/-! ### The cycle -/

/-- Where `n` calls of NEXT_GROUP with no valid clock stand in the cycle that began at `s` in phase 0: four segments of
the name, then one of the text (rule R132). -/
structure CycleAt (s : State) (n : Nat) (t : State) : Prop where
  noClock : t.timePort.valid = false
  phase : t.cursor.state.val = n % 5
  psState : t.cursor.psState.val = (s.cursor.psState.val + n % 5) % 4
  rtState : t.cursor.rtState.val = (s.cursor.rtState.val + n / 5) % 16

/-- The group that call `n` of that cycle leaves in `BITS` (rule R132). -/
structure CycleGroup (s : State) (n : Nat) (bits : BitVec 104) : Prop where
  name : n % 5 < 4 → groupType bits = 0x0 ∧
    (frameBlock1 bits).extractLsb' 0 2 = BitVec.ofNat 2 (s.cursor.psState.val + n % 5)
  text : n % 5 = 4 → groupType bits = 0x2 ∧
    (frameBlock1 bits).extractLsb' 0 4 = BitVec.ofNat 4 (s.cursor.rtState.val + n / 5)

theorem CycleAt.start {s : State} (hclock : s.timePort.valid = false) (hphase : s.cursor.state = 0) :
    CycleAt s 0 s where
  noClock := hclock
  phase := congrArg Fin.val hphase
  psState := (Nat.mod_eq_of_lt s.cursor.psState.isLt).symm
  rtState := (Nat.mod_eq_of_lt s.cursor.rtState.isLt).symm

/-- A word of `w` bits holds a number modulo `2 ^ w`. -/
theorem ofNat_mod_of_eq_two_pow {w m : Nat} (hm : m = 2 ^ w) (a : Nat) : BitVec.ofNat w (a % m) = BitVec.ofNat w a := by
  subst hm
  exact BitVec.eq_of_toNat_eq (by simp)

/-- One call in the cycle: the group of its phase, and the next place. -/
theorem CycleAt.call {s t : State} {n : Nat} (h : CycleAt s n t) :
    ∃ u, exec .nextGroup t = .next u ∧ CycleAt s (n + 1) u ∧ CycleGroup s n u.bits := by
  obtain ⟨hclock, hphase, hps, hrt⟩ := h
  by_cases hname : n % 5 < 4
  · obtain ⟨b, af, hexec, -, hb1, -⟩ := nextGroupEmitsProgrammeService t (.inl hclock) (by omega)
    have hstate' : (t.cursor.state + 1).val = (t.cursor.state.val + 1) % 5 := Fin.val_add _ _
    have hps' : (t.cursor.psState + 1).val = (t.cursor.psState.val + 1) % 4 := Fin.val_add _ _
    have hfields := psBlock1_fields hb1
    rw [← frameBlock1_frameBits hw b, hps, ofNat_mod_of_eq_two_pow (w := 2) (m := 4) rfl] at hfields
    exact ⟨_, hexec, ⟨hclock, hstate'.trans (by omega), hps'.trans (by omega), hrt.trans (by omega)⟩,
      ⟨fun _ => hfields, fun htext => by omega⟩⟩
  · obtain ⟨b, hexec, -, hb1, -⟩ := nextGroupEmitsRadioText t (.inl hclock) (Fin.ext (by omega))
    have hrt' : (t.cursor.rtState + 1).val = (t.cursor.rtState.val + 1) % 16 := Fin.val_add _ _
    have hfields := rtBlock1_fields hb1
    rw [← frameBlock1_frameBits hw b, hrt, ofNat_mod_of_eq_two_pow (w := 4) (m := 16) rfl] at hfields
    refine ⟨_, hexec, ⟨hclock, ?_, hps.trans (by omega), hrt'.trans (by omega)⟩,
      ⟨fun hname => by omega, fun _ => hfields⟩⟩
    change 0 = (n + 1) % 5
    omega

/-- A longer run of one operation is the shorter run, then the operation once more. -/
theorem execAll_replicate_succ {i : Instr} {n : Nat} {s t u : State} (ht : execAll (List.replicate n i) s = .next t)
    (hu : exec i t = .next u) : execAll (List.replicate (n + 1) i) s = .next u := by
  rw [List.replicate_succ', execAll_append _ _ _ _ ht, execAll_cons _ _ _ _ hu, execAll_nil]

/-- Every number of calls stays in the cycle. -/
theorem CycleAt.reached {s : State} (hclock : s.timePort.valid = false) (hphase : s.cursor.state = 0) (n : Nat) :
    ∃ t, execAll (List.replicate n .nextGroup) s = .next t ∧ CycleAt s n t := by
  induction n with
  | zero => exact ⟨s, rfl, .start hclock hphase⟩
  | succ n ih =>
    obtain ⟨t, ht, hat⟩ := ih
    obtain ⟨u, hu, hnext, -⟩ := hat.call
    exact ⟨u, execAll_replicate_succ ht hu, hnext⟩

/-- Settles O37: the cycle by induction on the calls, and a CT group as NEXT_GROUP's first branch (rules R121, R132). -/
theorem cycleIsFourNamesThenText : Obligations.CycleIsFourNamesThenText := by
  refine ⟨fun s n hclock hphase => ?_, fun s hvalid hmin => ?_⟩
  · obtain ⟨t, ht, hat⟩ := CycleAt.reached hclock hphase n
    obtain ⟨u, hu, ⟨-, hstate, hps, hrt⟩, hname, htext⟩ := hat.call
    exact ⟨u, execAll_replicate_succ ht hu, hstate, hname, htext, fun _ => Fin.ext (by omega),
      fun _ => Fin.ext (by omega)⟩
  · refine ⟨_, nextGroupEmitsClockTime s hvalid hmin, ?_, rfl⟩
    exact (congrArg (BitVec.extractLsb' 12 4) (frameBlock1_frameBits hw _)).trans (ctBlock1_type s.timePort)

/-! ### The day count -/

theorem daysInMonth_bounds (y m : Nat) : 28 ≤ daysInMonth y m ∧ daysInMonth y m ≤ 31 := by
  unfold daysInMonth
  split_ifs <;> omega

/-- The three forms of the day after: within the month, into the next month, into the next year. -/
theorem nextDay_cases {y m d : Nat} (h : validDate y m d) :
    nextDay y m d = (y, m, d + 1) ∨
    (m < 12 ∧ d = daysInMonth y m ∧ nextDay y m d = (y, m + 1, 1)) ∨
    (m = 12 ∧ d = 31 ∧ nextDay y m d = (y + 1, 1, 1)) := by
  obtain ⟨-, hm, -, hd⟩ := h
  unfold nextDay
  by_cases hday : d < daysInMonth y m
  · exact .inl (if_pos hday)
  · by_cases hmonth : m < 12
    · exact .inr (.inl ⟨hmonth, by omega, (if_neg hday).trans (if_pos hmonth)⟩)
    · obtain rfl : m = 12 := by omega
      have hdecember : daysInMonth y 12 = 31 := rfl
      exact .inr (.inr ⟨rfl, by omega, (if_neg hday).trans (if_neg hmonth)⟩)

/-- The formula's year term grows by the days of a year: one more every fourth year. -/
theorem yearTerm_succ (n : Nat) : (n + 1) * 1461 / 4 = n * 1461 / 4 + if (n + 1) % 4 = 0 then 366 else 365 := by
  have hr : n % 4 < 4 := Nat.mod_lt n (by decide)
  have hn := Nat.div_add_mod n 4
  generalize n / 4 = q, n % 4 = r at hn hr
  subst hn
  interval_cases r <;> split <;> omega

section
variable {y m : Nat}

/-- January and February count as months 13 and 14 of the year before (rule R124). -/
theorem mjdFormula_of_le_two (d : Nat) (h1 : 1 ≤ m) (h2 : m ≤ 2) :
    mjdFormula y m d = 14956 + d + (y - 1900 - 1) * 1461 / 4 + (m + 13) * 306001 / 10000 := by
  simp only [mjdFormula, if_pos (show m = 1 ∨ m = 2 by omega)]

theorem mjdFormula_of_three_le (d : Nat) (h : 3 ≤ m) :
    mjdFormula y m d = 14956 + d + (y - 1900) * 1461 / 4 + (m + 1) * 306001 / 10000 := by
  simp only [mjdFormula, if_neg (show ¬ (m = 1 ∨ m = 2) by omega), Nat.sub_zero, Nat.mul_zero, Nat.add_zero]

theorem mjdFormula_succ_day (d : Nat) : mjdFormula y m (d + 1) = mjdFormula y m d + 1 := by
  simp only [mjdFormula]
  omega

/-- The year term is the same in January and February, and grows by 31 days of the month term. -/
theorem mjdFormula_after_january : mjdFormula y 2 1 = mjdFormula y 1 31 + 1 := by
  simp only [mjdFormula_of_le_two, Nat.reduceLeDiff]
  omega

/-- The year term grows in March. Strictly between 1900 and 2100 every fourth year is a leap year. -/
theorem mjdFormula_after_february (hlo : 1900 < y) (hhi : y < 2100) :
    mjdFormula y 3 1 = mjdFormula y 2 (daysInMonth y 2) + 1 := by
  obtain ⟨k, hk⟩ : ∃ k, y - 1900 = k + 1 := ⟨y - 1901, by omega⟩
  rw [mjdFormula_of_three_le 1 (by decide), mjdFormula_of_le_two _ (by decide) (by decide), hk, Nat.add_sub_cancel,
    yearTerm_succ, daysInMonth, if_pos rfl]
  split_ifs <;> omega

/-- From March to December the month term grows by the month's days. -/
theorem mjdFormula_after_march_on (h3 : 3 ≤ m) (h12 : m < 12) :
    mjdFormula y (m + 1) 1 = mjdFormula y m (daysInMonth y m) + 1 := by
  have hmonth : (m + 1 + 1) * 306001 / 10000 = (m + 1) * 306001 / 10000 + daysInMonth y m := by
    interval_cases m <;> rfl
  rw [mjdFormula_of_three_le _ h3, mjdFormula_of_three_le _ (Nat.le_succ_of_le h3), hmonth]
  omega

theorem mjdFormula_next_month (h1 : 1 ≤ m) (h12 : m < 12) (hfeb : m = 2 → 1900 < y ∧ y < 2100) :
    mjdFormula y (m + 1) 1 = mjdFormula y m (daysInMonth y m) + 1 := by
  obtain rfl | rfl | h3 : m = 1 ∨ m = 2 ∨ 3 ≤ m := by omega
  · exact mjdFormula_after_january
  · obtain ⟨hlo, hhi⟩ := hfeb rfl
    exact mjdFormula_after_february hlo hhi
  · exact mjdFormula_after_march_on h3 h12

theorem mjdFormula_next_year (hy : 1900 ≤ y) : mjdFormula (y + 1) 1 1 = mjdFormula y 12 31 + 1 := by
  rw [mjdFormula_of_le_two _ (by decide) (by decide), mjdFormula_of_three_le _ (by decide), Nat.sub_add_comm hy,
    Nat.add_sub_cancel]
  omega

end

/-- The day after a date before 2100-02-28 is later, still in the stated range, and counts one more. -/
theorem mjdFormula_nextDay {y m d y' m' d' : Nat} (hdate : validDate y m d) (hlo : dateKey 1900 3 1 ≤ dateKey y m d)
    (hhi : dateKey y m d < dateKey 2100 2 28) (hnext : (y', m', d') = nextDay y m d) :
    dateKey y m d < dateKey y' m' d' ∧ dateKey y' m' d' ≤ dateKey 2100 2 28 ∧
      mjdFormula y' m' d' = mjdFormula y m d + 1 := by
  have hcases := nextDay_cases hdate
  obtain ⟨hm1, hm12, hd1, hd⟩ := hdate
  obtain ⟨hmin, hmax⟩ := daysInMonth_bounds y m
  simp only [dateKey, Nat.reduceMul, Nat.reduceAdd] at hlo hhi ⊢
  rcases hcases with hday | ⟨hm, hlast, hday⟩ | ⟨rfl, rfl, hday⟩ <;> cases hnext.trans hday
  · exact ⟨by omega, by omega, mjdFormula_succ_day d⟩
  · refine ⟨by omega, by omega, ?_⟩
    rw [hlast]
    exact mjdFormula_next_month hm1 hm fun _ => by omega
  · exact ⟨by omega, by omega, mjdFormula_next_year (by omega)⟩

theorem mjdFormula_lt {y m d : Nat} (hy : y ≤ 2100) (hm : m ≤ 15) (hd : d ≤ 31) : mjdFormula y m d < 2 ^ 17 := by
  simp only [mjdFormula]
  split_ifs <;> omega

/-- In the stated range the 17 bits of MJD hold the formula's value (rule R124). -/
theorem mjd_toNat (c : Cfg) {t : TimeReading}
    (hlo : dateKey 1900 3 1 ≤ dateKey t.year.toNat t.month.toNat t.day.toNat)
    (hhi : dateKey t.year.toNat t.month.toNat t.day.toNat ≤ dateKey 2100 2 28) :
    (mjd c t).toNat = mjdFormula t.year.toNat t.month.toNat t.day.toNat := by
  have hfits : mjdFormula t.year.toNat t.month.toNat t.day.toNat < 2 ^ 17 := by
    have hyear : t.year.toNat ≤ 2100 := by
      simp only [dateKey] at hhi
      omega
    exact mjdFormula_lt hyear (Nat.le_of_lt_succ t.month.isLt) (Nat.le_of_lt_succ t.day.isLt)
  rw [mjd, mjdDefined, if_pos (decide_eq_true ⟨hlo, hhi⟩), BitVec.toNat_ofNat, Nat.mod_eq_of_lt hfits]

/-- Settles O39: both dates are in the stated range, where the MJD is the formula's value (rule R124). -/
theorem mjdCountsDays : Obligations.MjdCountsDays := by
  intro t u hdate hlo hhi hnext
  obtain ⟨hlater, hmax, hcount⟩ := mjdFormula_nextDay hdate hlo hhi hnext
  have ht := mjd_toNat hw hlo hhi.le
  have hu := mjd_toNat hw (hlo.trans hlater.le) hmax
  refine ⟨by rw [hu, ht, hcount], fun hy hm hd => BitVec.eq_of_toNat_eq ?_,
    fun hy hm hd => BitVec.eq_of_toNat_eq ?_⟩
  · rw [ht, hy, hm, hd]
    rfl
  · rw [hu, hy, hm, hd]
    rfl

end Sys2Proof.Machine
end

section
/-! Proofs of the statements about the waveform synthesizer (rules R150 to R163, R232): SAMPLE and its parts, the
differential encoder, PRODUCE, the closed form of the pulse shaper, and the first SAMPLE after RESET. -/
namespace Sys2Proof.Machine
open Sys2Proof

/-! ### SAMPLE and its parts -/

/-- Within a bit, step 1 of SAMPLE does nothing: what is left is READ_OUT, MODULATE and the count (rule R150). -/
theorem sample_of_lt {s : State} (h : s.synth.sampleCount.val < 192) :
    s.sample hw = s.emitSample hw (carrier hw s.synth.phase (s.envelopeOut hw)) := by
  rw [sample_eq_emitSample, State.sampleValue, loadBit_of_lt s h]

/-- A bit just loaded is not loaded again: at the end of a bit's span SAMPLE is NEXT_BIT and the rest of SAMPLE (rules
R150, R151). -/
theorem sample_nextBit {s : State} (h : s.synth.sampleCount.val = 192) :
    (s.nextBit hw).sample hw = s.sample hw := by
  have hloaded : (s.nextBit hw).loadBit hw = s.loadBit hw :=
    (loadBit_of_lt (s.nextBit hw) (show 0 < 192 by decide)).trans (loadBit_of_boundary s h).symm
  simp only [sample_eq_emitSample, State.sampleValue, hloaded]

theorem sample_of_boundary {s : State} (h : s.synth.sampleCount.val = 192) : s.sample hw =
    (s.nextBit hw).emitSample hw (carrier hw (s.nextBit hw).synth.phase ((s.nextBit hw).envelopeOut hw)) := by
  rw [← sample_nextBit h, sample_of_lt (show 0 < 192 by decide)]

/-- Settles O40: the parts of SAMPLE within a bit, each with its own write (rules R150, R154, R155). -/
theorem sampleWithinBit : Obligations.SampleWithinBit := fun _ h =>
  congrArg Host.Outcome.next (sample_of_lt h)

/-- Settles O50: the value READ_OUT returns is the one MODULATE takes, and no part of SAMPLE reads `result`. -/
theorem sampleComposesReadOutAndModulate : Obligations.SampleComposesReadOutAndModulate := fun s h =>
  ⟨_, _, s.envelopeOut hw, _, rfl, rfl, rfl, rfl, congrArg Host.Outcome.next (sample_of_lt h)⟩

/-- Settles O41: NEXT_BIT leaves `sample_count` at 0, so the SAMPLE after it loads no bit of its own. -/
theorem sampleAtBitBoundaryLoadsBit : Obligations.SampleAtBitBoundaryLoadsBit := fun s h =>
  ⟨s.nextBit hw, s.sample hw, rfl, congrArg Host.Outcome.next (sample_nextBit h), rfl⟩

/-- Settles O48, phase by phase of the carrier (rules R155, R156). -/
theorem modulateByFourPhaseCarrier : Obligations.ModulateByFourPhaseCarrier := by
  intro e s
  refine ⟨carrier hw s.synth.phase e, rfl, ?_, ?_, ?_, ?_⟩ <;>
  · intro hphase
    rw [hphase, carrier]

/-- Settles O43: a frame with a bit left needs no refill (rules R151, R152, R153). -/
theorem nextBitEncodesAndAddsPulse : Obligations.NextBitEncodesAndAddsPulse := by
  intro s hleft
  refine ⟨_, _, rfl, rfl, congrArg Host.Outcome.next ?_⟩
  rw [State.nextBit, refill_of_lt hw s hleft]
  rfl

/-- Settles O45: the `F` taps fall on different slots of a ring of `B = S + F`, each of which is added to once (rule
R153). -/
theorem olaAddAddsSignedPulse : Obligations.OlaAddAddsSignedPulse := by
  intro d s hshape
  obtain ⟨hexec, hlen, hother⟩ := olaAddFrame d s
  have htaps : 0 + hw.filterSize ≤ hw.ringSize := by
    rw [Nat.zero_add]
    exact Nat.le_add_left _ _
  exact ⟨_, hexec, hlen.trans hshape.ringLength,
    fun j hj => overlapAdd_tap hw d _ _ 0 _ hshape.ringLength htaps j j.zero_le (by omega), fun k _ => hother k⟩

/-! ### The differential encoder -/

@[simp] theorem refill_curOutput (c : Cfg) (s : State) : (s.refill c).synth.curOutput = s.synth.curOutput := by
  unfold State.refill; split <;> rfl

/-- NEXT_BIT leaves `bit_pos` one past the bit it took. -/
theorem nextBit_bitPos (c : Cfg) (s : State) :
    (s.nextBit c).synth.bitPos.val = (s.refill c).synth.bitPos.val + 1 := bitPos_succ _ (refill_bitPos_lt c s)

/-- NEXT_BIT encodes the bit it takes onto the cell, whether or not the frame is a new one (rule R152). -/
theorem nextBit_curOutput (c : Cfg) (s : State) : (s.nextBit c).synth.curOutput =
    (s.synth.curOutput ^^ (s.nextBit c).bits.getMsbD ((s.nextBit c).synth.bitPos.val - 1)) := by
  rw [nextBit_bitPos, Nat.add_sub_cancel, ← refill_curOutput c s]
  rfl

/-- A cell value xor-ed on twice is gone. -/
theorem diffEncode_xor (cell b : Bool) : (diffEncode cell b ^^ cell) = b := by
  simp [diffEncode, Bool.xor_comm cell b]

/-- Decoding undoes encoding bit by bit (rule R152). -/
theorem decodeBits_encodeBits (cell : Bool) (bits : List Bool) : decodeBits cell (encodeBits cell bits) = bits := by
  induction bits generalizing cell with
  | nil => rfl
  | cons b bits ih => simp only [encodeBits, decodeBits, diffEncode_xor, ih]

/-- Complementing the cell and the stream together changes no decoded bit (rule R152). -/
theorem decodeBits_complement (cell : Bool) (es : List Bool) :
    decodeBits (!cell) (es.map (!·)) = decodeBits cell es := by
  induction es generalizing cell with
  | nil => rfl
  | cons e es ih => simp [decodeBits, ih]

/-- Settles O49: each clause of rule R152. In the complemented stream the first bit alone is decoded against a cell that
is not complemented. -/
theorem differentialEncodingRoundTrip : Obligations.DifferentialEncodingRoundTrip := by
  refine ⟨fun s => ⟨s.nextBit hw, rfl, ?_, nextBit_curOutput hw s⟩, fun _ => ⟨_, rfl, rfl⟩, decodeBits_encodeBits,
    fun cell b bits => ?_⟩
  · rw [nextBit_bitPos]
    exact Nat.le_add_left _ _
  · simp only [encodeBits, decodeBits, List.map_cons, decodeBits_complement, decodeBits_encodeBits, Bool.not_xor,
      diffEncode_xor]

/-! ### PRODUCE -/

theorem produce_add (c : Cfg) (a b : Nat) (s : State) : (s.produce c a).produce c b = s.produce c (a + b) := by
  induction a generalizing s with
  | zero => rw [Nat.zero_add]; rfl
  | succ a ih => rw [Nat.succ_add]; exact ih (s.sample c)

theorem produce_samplesOut_length (c : Cfg) (n : Nat) (s : State) :
    (s.produce c n).samplesOut.length = s.samplesOut.length + n := by
  induction n generalizing s with
  | zero => rfl
  | succ n ih => rw [State.produce, ih, State.sample_samplesOut, List.length_append, List.length_singleton]; omega

theorem execAll_replicate_sample (n : Nat) (s : State) :
    execAll (List.replicate n .sample) s = .next (s.produce hw n) := by
  induction n generalizing s with
  | zero => rfl
  | succ n ih => exact ih (s.sample hw)

/-- Settles O42, by induction on the number of samples (rule R158). -/
theorem produceIsRepeatedSample : Obligations.ProduceIsRepeatedSample := fun a b s =>
  ⟨rfl, s.produce hw a, rfl, congrArg Host.Outcome.next (produce_add hw a b s), produce_samplesOut_length hw a s,
    execAll_replicate_sample a s⟩

/-! ### The closed form -/

/-- The slot at the read cursor holds the envelope owed now (rules R154, R159). -/
theorem envelopeOut_of_ringHolds {c : Cfg} {ds : List Bool} {s : State} (h : RingHolds c ds s) (hB : 0 < c.ringSize) :
    s.envelopeOut c = envelope c ds s.synth.sampleCount.val := by
  have hslot := h.slots 0 hB
  rwa [Nat.add_zero, Nat.mod_eq_of_lt h.shape.outIdx_lt] at hslot

/-- Within a bit SAMPLE returns the envelope owed now on the carrier, and the ring holds what is still owed (rules R150,
R159, R163). -/
theorem sample_realises_envelope {ds : List Bool} {s : State} (h : RingHolds hw ds s)
    (hcount : s.synth.sampleCount.val < 192) :
    (s.sample hw).samplesOut =
      s.samplesOut ++ [carrier hw s.synth.phase (envelope hw ds s.synth.sampleCount.val)] ∧
    RingHolds hw ds (s.sample hw) := by
  rw [sample_of_lt hcount, envelopeOut_of_ringHolds h hw_ringSize_pos]
  exact ⟨rfl, ringHolds_emitSample h hcount (by decide) _⟩

/-- Settles O52: within a bit by `sample_realises_envelope`; at the end of its span NEXT_BIT adds what the new bit owes,
and then that lemma holds of the state NEXT_BIT leaves. -/
theorem sampleRealisesClosedForm : Obligations.SampleRealisesClosedForm := by
  refine fun ds s h => ⟨s.sample hw, rfl, sample_realises_envelope h, fun hspan => ?_⟩
  have hbit := sample_realises_envelope (ringHolds_nextBit h hspan (by decide)) (show 0 < 192 by decide)
  have hcell : (s.sample hw).synth.curOutput = (s.nextBit hw).synth.curOutput := by
    rw [sample_of_boundary hspan]
    rfl
  have hphase : (s.nextBit hw).synth.phase = s.synth.phase := refill_phase hw s
  rwa [sample_nextBit hspan, State.nextBit_samplesOut, hphase, ← hcell] at hbit

/-! ### The first SAMPLE after RESET -/

theorem minuteWord_ne_reset (m : BitVec 6) : minuteWord m ≠ GroupCursor.reset.latestMinute := by
  revert m; decide

/-- The reset value of `latest_minute` is no minute, so the first group is a CT group exactly when the clock is valid; a
CT group leaves the phase, a 0A group advances it (rules R121, R232). -/
theorem nextGroup_of_reset_cursor {s : State} (hcursor : s.cursor = GroupCursor.reset) :
    groupType (s.nextGroup hw).bits = (if s.timePort.valid then 0x4 else 0x0) ∧
    (s.nextGroup hw).cursor.state = if s.timePort.valid then 0 else 1 := by
  cases hvalid : s.timePort.valid
  · obtain ⟨u, hu, ⟨-, hphase, -, -⟩, hgroup⟩ := (CycleAt.start hvalid (congrArg GroupCursor.state hcursor)).call
    cases hu
    exact ⟨(hgroup.name (by decide)).1, Fin.ext hphase⟩
  · have hmin : s.timePort.min.setWidth 7 ≠ s.cursor.latestMinute := by
      rw [hcursor]
      exact minuteWord_ne_reset s.timePort.min
    obtain ⟨u, hu, htype, hkept⟩ := cycleIsFourNamesThenText.2 s hvalid hmin
    cases hu
    exact ⟨htype, (congrArg GroupCursor.state hkept).trans (congrArg GroupCursor.state hcursor)⟩

/-- With the registers of the synthesis side as RESET sets them the ring owes nothing and the frame is exhausted, so
SAMPLE loads a bit and renders a group first (rules R160, R232). -/
theorem sample_of_reset_synth {r : State} (hsynth : r.synth = State.reset.synth)
    (hcursor : r.cursor = GroupCursor.reset) :
    (r.sample hw).samplesOut = r.samplesOut ++ [hw.zero] ∧ (r.sample hw).synth.bitPos = 1 ∧
    (r.sample hw).synth.sampleCount = 1 ∧ (r.sample hw).snap = r.params ∧
    groupType (r.sample hw).bits = (if r.timePort.valid then 0x4 else 0x0) ∧
    (r.sample hw).cursor.state = if r.timePort.valid then 0 else 1 := by
  have hcount : r.synth.sampleCount.val = 192 := by rw [hsynth]; decide
  have hend : r.synth.bitPos = 104 := by rw [hsynth]; rfl
  have hphase : r.synth.phase = 0 := by rw [hsynth]; rfl
  have hring : RingHolds hw [] r :=
    ringHolds_reset.of_synth (by rw [hsynth]) (by rw [hsynth]) (by rw [hsynth]) (by rw [hsynth])
  obtain ⟨_, hexec, -, hboundary⟩ := sampleRealisesClosedForm [] r hring
  cases hexec
  obtain ⟨hout, -⟩ := hboundary hcount
  rw [hphase] at hout
  obtain ⟨_, _, -, -, hbit, hpos⟩ := nextBitRequestsNewFrame r hend
  cases hbit
  have hmid : ¬ r.midGroup := by rw [State.midGroup, hcount, hend]; decide
  obtain ⟨hsnap, hcursor', hbits⟩ := loadBit_of_not_midGroup r hmid
  obtain ⟨htype, hstate⟩ := nextGroup_of_reset_cursor hcursor
  refine ⟨hout, ?_, ?_, hsnap, (congrArg groupType hbits).trans htype,
    (congrArg GroupCursor.state hcursor').trans hstate⟩
  · rw [sample_of_boundary hcount]
    exact hpos
  · rw [sample_of_boundary hcount]
    rfl

/-- Settles O55: RESET sets those registers and leaves the time port and the samples returned; the parameters written
after it are no part of them. -/
theorem firstSampleAfterReset : Obligations.FirstSampleAfterReset := fun _ _ =>
  ⟨_, _, rfl, rfl, sample_of_reset_synth rfl rfl⟩

end Sys2Proof.Machine
end

section
/-! Proof of the statement about the host's reload of the history file (rules R183 to R187): what the commands of each
line do while writes are suppressed, and the lines of a written file one after the other. -/
namespace Sys2Proof.Machine
open Sys2Proof

/-! ### While writes are suppressed -/

/-- The state in the middle of a reload that has restored the parameters so far to `q` (rule R184). -/
def State.reloading (s : State) (q : StationParams) : State :=
  { s with params := q, suppressWrite := true, cmdStatus := .ok }

@[simp] theorem State.reloading_params (s : State) (q : StationParams) : (s.reloading q).params = q := rfl

/-- The commands of these lines, done in the middle of a reload, take the parameters from `q` to `q'`. -/
def Restores (lines : List HistoryLine) (q q' : StationParams) : Prop :=
  ∀ s : State, execAll (lines.flatMap (historyCommands false)) (s.reloading q) = .next (s.reloading q')

theorem Restores.nil (q : StationParams) : Restores [] q q := fun _ => rfl

theorem Restores.append {l m : List HistoryLine} {p q r : StationParams} (hl : Restores l p q) (hm : Restores m q r) :
    Restores (l ++ m) p r := by
  intro s
  rw [List.flatMap_append, execAll_append _ _ _ _ (hl s), hm s]

/-- SET_SUPPRESS 1 starts a reload with the parameters there are, SET_SUPPRESS 0 ends it (rules R109, R184). -/
theorem execAll_reloadCommands {lines : List HistoryLine} {q : StationParams} (s : State)
    (h : Restores lines s.params q) : execAll (reloadCommands false lines) s =
      .next { s with params := q, suppressWrite := false, cmdStatus := .ok } :=
  execAll_append _ _ (s.reloading s.params) _ (h s)

/-! ### Line by line -/

/-- A text presented with at least its field's length is stored as it is (rules R102, R103). -/
theorem fitText_of_le {n : Nat} {len : BitVec 7} (h : n ≤ len.toNat) (chars : Vector Byte n) :
    fitText len chars = chars := by
  refine Vector.ext fun k hk => ?_
  have hget := fitText_get len chars ⟨k, hk⟩
  rwa [if_pos (Nat.lt_of_lt_of_le hk h)] at hget

/-- A 5-bit PTY is at most 31, so SET_PTY does not clamp it (rule R105). -/
theorem clampPty_setWidth (pty : BitVec 5) : clampPty (pty.setWidth 8) = pty := by
  have hlt := pty.isLt
  refine BitVec.eq_of_toNat_eq ?_
  rw [clampPty_toNat, BitVec.toNat_setWidth]
  omega

theorem restores_pi (q : StationParams) (code : BitVec 16) : Restores [.pi code] q { q with pi := code } :=
  fun _ => rfl

theorem restores_ps (q : StationParams) (text : Vector Byte 8) : Restores [.ps text] q { q with ps := text } := by
  have hset : Restores [.ps text] q { q with ps := fitText 8 text } := fun _ => rfl
  rwa [fitText_of_le (by decide)] at hset

theorem restores_rt (q : StationParams) (text : Vector Byte 64) : Restores [.rt text] q { q with rt := text } := by
  have hset : Restores [.rt text] q { q with rt := fitText 64 text } := fun _ => rfl
  rwa [fitText_of_le (by decide)] at hset

theorem restores_pty (q : StationParams) (pty : BitVec 5) :
    Restores [.pty (pty.setWidth 8)] q { q with pty := pty } := by
  have hset : Restores [.pty (pty.setWidth 8)] q { q with pty := clampPty (pty.setWidth 8) } := fun _ => rfl
  rwa [clampPty_setWidth] at hset

/-- The marker is the host's alone and becomes no command (rules R184, R186). -/
theorem restores_psvar (q : StationParams) (varying : Bool) : Restores (if varying then [.psvarOn] else []) q q := by
  cases varying
  · exact .nil q
  · exact fun _ => rfl

/-- No line stands for TA 0, so TA is restored where it was 0 (rule R184). -/
theorem restores_ta {q : StationParams} (hq : q.ta = false) (ta : Bool) :
    Restores (if ta then [.taOn] else []) q { q with ta := ta } := by
  cases ta
  · cases q
    cases hq
    exact .nil _
  · exact fun _ => rfl

/-- Valid codes that fit are appended one by one (rules R108, R184). -/
theorem execAll_addAfCodes {codes : List Byte} (hvalid : ∀ c ∈ codes, 1 ≤ c.toNat ∧ c.toNat ≤ 204) (s : State)
    (q : StationParams) (hroom : q.afPool.length + codes.length ≤ 25) :
    execAll (codes.map .addAfCode) (s.reloading q) = .next (s.reloading { q with afPool := q.afPool ++ codes }) := by
  induction codes generalizing q with
  | nil => rw [List.append_nil]; rfl
  | cons c codes ih =>
    obtain ⟨⟨hlo, hhi⟩, hrest⟩ := List.forall_mem_cons.mp hvalid
    rw [List.length_cons] at hroom
    have hexec : exec (.addAfCode c) (s.reloading q) = .next (s.reloading { q with afPool := q.afPool ++ [c] }) := by
      rw [addAfCodeValidatesAndAppends.2, if_neg (by omega), if_neg (by rw [State.reloading_params]; omega)]
      rfl
    rw [List.map_cons, execAll_cons _ _ _ _ hexec,
      ih hrest _ (by rw [List.length_append, List.length_singleton]; omega), List.append_assoc, List.singleton_append]

/-- No line stands for an empty pool, and a reload clears none, so the pool is restored where it was empty (rule R184). -/
theorem restores_af {q : StationParams} (hq : q.afPool = []) {pool : List Byte} (hpool : poolWf pool) :
    Restores (if pool.isEmpty then [] else [.af pool]) q { q with afPool := pool } := by
  obtain ⟨hlen, hvalid⟩ := hpool
  cases pool with
  | nil =>
    cases q
    cases hq
    exact .nil _
  | cons c codes =>
    intro s
    have hadd := execAll_addAfCodes hvalid s q (by rwa [hq, List.length_nil, Nat.zero_add])
    rw [hq, List.nil_append] at hadd
    rw [List.isEmpty_cons, if_neg Bool.false_ne_true, List.flatMap_singleton]
    exact hadd

/-! ### The written file -/

/-- The lines of a written file, one after the other, restore every parameter (rules R183, R185). -/
theorem restores_writeHistory {p q : StationParams} (varying : Bool) (hp : p.Wf) (hpool : q.afPool = [])
    (hta : q.ta = false) : Restores (writeHistory varying p) q p := by
  have hpi := restores_pi q p.pi
  have htexts : Restores [.ps p.ps, .rt p.rt, .pty (p.pty.setWidth 8)] { q with pi := p.pi }
      { p with ta := q.ta, afPool := q.afPool } :=
    (restores_ps _ p.ps).append ((restores_rt _ p.rt).append (restores_pty _ p.pty))
  have hflag := restores_ta (q := { p with ta := q.ta, afPool := q.afPool }) hta p.ta
  have hcodes := restores_af (q := { p with afPool := q.afPool }) hpool hp
  exact (((hpi.append (restores_psvar _ varying)).append htexts).append hflag).append hcodes

/-- Settles O58: a reload is the commands of the written lines between SET_SUPPRESS 1 and SET_SUPPRESS 0, and those lines
restore every parameter (rules R184, R187). -/
theorem historyRoundTrip : Obligations.HistoryRoundTrip := fun _ varying s hp hpool hta =>
  execAll_reloadCommands s (restores_writeHistory varying hp hpool hta)

end Sys2Proof.Machine
end

section
/-! Proofs of the statements about faults and idle steps: what a step does at each thing the ports can present, and
CMD_RESERVED (rules R203, R204, R208, R219, R231). -/
namespace Sys2Proof.Machine
open Sys2Proof

/-! ### The step when no operation is selected -/

/-- A step at which the ports present no word keeps the state as presented (rule R231). -/
theorem step_of_no_word {s s' : State} (hpresent : s.present = (none, s')) : step s = .next s' := by
  simp only [step, hpresent]

/-- A word that selects no operation raises nothing: the step keeps the state as presented (rule R219). -/
theorem step_of_no_operation {s s' : State} {w : PortWord} {e : DecodeError} (hpresent : s.present = (some w, s'))
    (hdecode : decode w = .error e) : step s = .next s' := by
  simp only [step, hpresent, hdecode]

/-- Settles O6: an empty list of instants presents no word and drives no port (rules R219, R231). -/
theorem stepHoldsStateWhenIdle : Obligations.StepHoldsStateWhenIdle := fun s hpending =>
  step_of_no_word (present_nil s hpending)

/-- Settles O8: a step with no operation keeps the presented state, and every operation completes (rules R204, R208). -/
theorem everyStepAnswersNext : Obligations.EveryStepAnswersNext := by
  intro s
  rcases hpresent : s.present with ⟨_ | w, s'⟩
  case none => exact ⟨s', step_of_no_word hpresent⟩
  case some =>
    cases hdecode : decode w with
    | error e => exact ⟨s', step_of_no_operation hpresent hdecode⟩
    | ok i =>
      rw [stepRunsDecodedOperation s s' w i hpresent hdecode]
      exact exec_completes i s'

/-! ### CMD_RESERVED -/

/-- Settles O18: the decoder's last arm for the reserved opcodes, and a rejection with UNKNOWN_CMD (rule R203). -/
theorem reservedCommandOnlySetsStatus : Obligations.ReservedCommandOnlySetsStatus := by
  refine ⟨fun op len data hop => ?_, fun _ _ => ⟨.unknownCmd, rfl, rfl⟩⟩
  have hreserved : reservedOp op = true := (reservedOp_iff op).mpr (hop.imp_left (congrArg BitVec.toNat))
  exact congrArg Except.ok (decodeCmd_of_reserved ⟨op, len, data⟩ hreserved)

end Sys2Proof.Machine
end
